-- ==== Sys2Proof/Word.lean ====
section
/-! DEFINITION. The word types of KRP (spec 00_scope R5, R7: 32-bit registers, bit 0 least significant). -/

namespace Sys2Proof

/-- A 32-bit register, memory word, instruction word or byte address (R5). -/
abbrev Word := BitVec 32

/-- The 30 bits carried by the address pins PA and DA: which word of a memory (R41, R44). -/
abbrev WordIndex := BitVec 30

/-- A 5-bit register field, naming one of the 32 general registers (R38). -/
abbrev Reg := BitVec 5

end Sys2Proof
end

