-- ==== Sys2Proof/Config.lean ====
section
/-! DEFINITION. The parameters of KRP that the spec leaves open or decides with an alternative
(00_scope R6, 92_eei_decisions "Parameters, collected"), and the free values. A machine's parameters
are a `Config`; State carries one that no step changes (log 24), so that a statement about every state
is a statement about every choice of the parameters. -/

namespace Sys2Proof

/-- TYPE2_LAYOUT (R93, D5): the order, from the left, of mode, imm10 and shamt inside bits 16..0 of a
type-2 immediate. The figure is lost; the spec decides the first order and keeps it a parameter. -/
inductive Type2Layout where
  | modeImmShamt
  | modeShamtImm
  | immModeShamt
  | immShamtMode
  | shamtModeImm
  | shamtImmMode
  deriving DecidableEq, Repr

/-- MISALIGNED_DATA (R64, D2): a data address whose low two bits are not 00. -/
inductive MisalignedData where
  /-- decided: the two bits have no pin to leave by and are ignored -/
  | ignoreBits
  /-- the named alternative -/
  | refuse
  deriving DecidableEq, Repr

/-- MISALIGNED_PC (R35, D3): a control-transfer target whose low two bits are not 00. -/
inductive MisalignedPc where
  /-- decided -/
  | refuse
  /-- the guess of D3 that PC clears the two bits (DESIGN CHOICE to offer it, log 15) -/
  | clearBits
  /-- the guess of D3 that PC keeps the two bits while the fetch drops them (DESIGN CHOICE, log 15) -/
  | keepBits
  deriving DecidableEq, Repr

/-- UNUSED_BITS (R97, D8): the instruction bits marked "unused". -/
inductive UnusedBits where
  /-- decided: the decoder does not look at them -/
  | ignore
  /-- the named alternative: a word with one of them set is refused -/
  | refuse
  deriving DecidableEq, Repr

/-- RESERVED_COND (R108, D10): cond 110 and 111 of BR and BRL. -/
inductive ReservedCond where
  /-- decided -/
  | refuse
  /-- the named alternative: never taken (a BRL still links) -/
  | notTaken
  deriving DecidableEq, Repr

/-- BRL_OVERLAP (R200, D15): a BRL whose link register is also its target or tested register. -/
inductive BrlOverlap where
  /-- decided -/
  | refuse
  /-- the reading of section 5: operands are read before the link is written (log 17) -/
  | oldValues
  /-- the OPERATION block read as sequential code: the link is written first (log 17) -/
  | newValues
  deriving DecidableEq, Repr

/-- IRQ_IN_DELAY_SLOT (R269, D19): a request between a taken branch and its delay slot. -/
inductive IrqInDelaySlot where
  /-- decided -/
  | refuse
  /-- the named alternative: the check is skipped here and made at the next boundary -/
  | hold
  deriving DecidableEq, Repr

/-- A run of word indices `base .. base + size - 1` that a memory implements. -/
structure Span where
  base : Nat
  size : Nat
  deriving DecidableEq, Repr

/-- The parameters of one KRP machine. -/
structure Config where
  /-- INT_VECTOR without its two zero bits: every multiple of 4 and nothing else (R268, D17) -/
  intVector : WordIndex
  type2Layout : Type2Layout
  misalignedData : MisalignedData
  misalignedPc : MisalignedPc
  unusedBits : UnusedBits
  reservedCond : ReservedCond
  brlOverlap : BrlOverlap
  irqInDelaySlot : IrqInDelaySlot
  /-- PMEM_RANGE (R41, R70, D26) -/
  pmemRange : List Span
  /-- DMEM_RANGE (R41, R70, D26) -/
  dmemRange : List Span
  /-- the part of DMEM_RANGE behind which the platform has a device, not plain memory (R68) -/
  deviceRange : List Span
  deriving DecidableEq, Repr

/-- INT_VECTOR is OPEN (R268, D17): "It must not be assumed to be 0 ... nor any other particular value". -/
opaque Config.openVector : WordIndex

/-- The n-th free value the machine draws: a register after RST (R45), a word read from a device (R68). -/
opaque Config.freeWord : Nat → Word

/-- Both memories populated in full, which D26 allows a model to take. -/
def Config.fullRange : List Span := [⟨0, 0x40000000⟩]

/-- The values the spec decides, the vector left open, both memories in full, no device. -/
def Config.decided : Config :=
  { intVector := Config.openVector
    type2Layout := .modeImmShamt
    misalignedData := .ignoreBits
    misalignedPc := .refuse
    unusedBits := .ignore
    reservedCond := .refuse
    brlOverlap := .refuse
    irqInDelaySlot := .refuse
    pmemRange := Config.fullRange
    dmemRange := Config.fullRange
    deviceRange := [] }

end Sys2Proof
end

