-- ==== Sys2Proof/Syntax.lean ====
section
/-! DEFINITION. The instructions of KRP: one constructor for each of the 35 rows of the opcode table
(30_encoding R106). Fields are the row's fields (R91); a shift row of the i = 1 variant carries rc, of
the i = 0 variant shamt (R96). -/

namespace Sys2Proof

/-- The 2-bit shift modes of a type-2 immediate (R13). -/
inductive ShiftMode where
  | shl
  | lsr
  | asr
  | ror
  deriving DecidableEq, Repr

/-- The 3-bit conditions of BR and BRL (R14); codes 110 and 111 are reserved (R108). -/
inductive Cond where
  | nv
  | al
  | eq
  | ne
  | ge
  | lt
  | reserved6
  | reserved7
  deriving DecidableEq, Repr

/-- The operand of a type-2 immediate, written `mode(imm10, shamt)` (R93, R112). -/
structure Type2 where
  mode : ShiftMode
  imm10 : BitVec 10
  shamt : BitVec 5
  deriving DecidableEq, Repr

inductive Instr where
  /-- ADDI ra, rb, imm17 (opcode 0, R131) -/
  | addi (ra rb : Reg) (imm17 : BitVec 17)
  /-- ADDI ra, rb, shift(imm10, shamt) (opcode 1, R132) -/
  | addi2 (ra rb : Reg) (op2 : Type2)
  /-- ORI, type 1 (opcode 2, R133) -/
  | ori (ra rb : Reg) (imm17 : BitVec 17)
  /-- ORI, type 2 (opcode 3, R134) -/
  | ori2 (ra rb : Reg) (op2 : Type2)
  /-- ANDI, type 1 (opcode 4, R135) -/
  | andi (ra rb : Reg) (imm17 : BitVec 17)
  /-- ANDI, type 2 (opcode 5, R136) -/
  | andi2 (ra rb : Reg) (op2 : Type2)
  /-- MOVI, type 1 (opcode 6, R137) -/
  | movi (ra : Reg) (imm17 : BitVec 17)
  /-- MOVI, type 2 (opcode 7, R138) -/
  | movi2 (ra : Reg) (op2 : Type2)
  /-- ADD ra, rb, rc (opcode 8, R151) -/
  | add (ra rb rc : Reg)
  /-- SUB ra, rb, rc (opcode 9, R152) -/
  | sub (ra rb rc : Reg)
  /-- NOT ra, rc (opcode 10, R153) -/
  | not (ra rc : Reg)
  /-- NEG ra, rc (opcode 11, R154) -/
  | neg (ra rc : Reg)
  /-- OR ra, rb, rc (opcode 12, R155) -/
  | or (ra rb rc : Reg)
  /-- AND ra, rb, rc (opcode 13, R156) -/
  | and (ra rb rc : Reg)
  /-- XOR ra, rb, rc (opcode 14, R157) -/
  | xor (ra rb rc : Reg)
  /-- ASR ra, rb, shamt (opcode 15, i = 0, R172) -/
  | asr (ra rb : Reg) (shamt : BitVec 5)
  /-- ASR ra, rb, rc (opcode 15, i = 1, R172) -/
  | asrR (ra rb rc : Reg)
  /-- LSR ra, rb, shamt (opcode 16, i = 0, R173) -/
  | lsr (ra rb : Reg) (shamt : BitVec 5)
  /-- LSR ra, rb, rc (opcode 16, i = 1, R173) -/
  | lsrR (ra rb rc : Reg)
  /-- SHL ra, rb, shamt (opcode 17, i = 0, R174) -/
  | shl (ra rb : Reg) (shamt : BitVec 5)
  /-- SHL ra, rb, rc (opcode 17, i = 1, R174) -/
  | shlR (ra rb rc : Reg)
  /-- ROR ra, rb, shamt (opcode 18, i = 0, R175) -/
  | ror (ra rb : Reg) (shamt : BitVec 5)
  /-- ROR ra, rb, rc (opcode 18, i = 1, R175) -/
  | rorR (ra rb rc : Reg)
  /-- BR{cond} rb{, rc} (opcode 19, R196) -/
  | br (rb rc : Reg) (cond : Cond)
  /-- BRL{cond} ra, rb{, rc} (opcode 20, R197) -/
  | brl (ra rb rc : Reg) (cond : Cond)
  /-- J imm22 (opcode 21, R198) -/
  | j (imm22 : BitVec 22)
  /-- JL ra, imm22 (opcode 22, R199) -/
  | jl (ra : Reg) (imm22 : BitVec 22)
  /-- LD ra, imm17(rb), or LD ra, imm17 when rb is 31 (opcode 23, R222) -/
  | ld (ra rb : Reg) (imm17 : BitVec 17)
  /-- LDR ra, imm22 (opcode 24, R223) -/
  | ldr (ra : Reg) (imm22 : BitVec 22)
  /-- ST ra, imm17(rb), or ST ra, imm17 when rb is 31 (opcode 25, R224) -/
  | st (ra rb : Reg) (imm17 : BitVec 17)
  /-- STR ra, imm22 (opcode 26, R225) -/
  | str (ra : Reg) (imm22 : BitVec 22)
  /-- LEA ra, imm22 (opcode 27, R226) -/
  | lea (ra : Reg) (imm22 : BitVec 22)
  /-- IEN (opcode 29, R250) -/
  | ien
  /-- IDS (opcode 30, R251) -/
  | ids
  /-- RFI (opcode 31, R252) -/
  | rfi
  deriving DecidableEq, Repr

end Sys2Proof
end

