-- ==== Sys2Proof/WellFormed.lean ====
section
/-! DEFINITION. Which instruction terms stand for an instruction of a machine with given parameters:
the terms the decoder can answer and the encoder can write. Field widths are in the types; what is left
is about BR and BRL (R97, R108, R113). -/

namespace Sys2Proof

/-- cond 110 and 111 name no instruction unless RESERVED_COND is `notTaken` (R108). -/
def Cond.allowed (c : Config) : Cond → Bool
  | .reserved6 | .reserved7 => c.reservedCond == .notTaken
  | .nv | .al | .eq | .ne | .ge | .lt => true

/-- A BR or BRL does not read rc when cond is 0 or 1; the field is free and is written as 0 (R97, R113). -/
def Cond.readsRc : Cond → Bool
  | .nv | .al => false
  | .eq | .ne | .ge | .lt | .reserved6 | .reserved7 => true

/-- A BR does not read rb when cond is 0 (R97). -/
def Cond.branches : Cond → Bool
  | .nv => false
  | .al | .eq | .ne | .ge | .lt | .reserved6 | .reserved7 => true

/-- The term is an instruction of the machine, its free fields (R97) written as zeros. -/
def Instr.wellFormed (c : Config) : Instr → Bool
  | .br rb rc cond => cond.allowed c && (cond.readsRc || rc == 0#5) && (cond.branches || rb == 0#5)
  | .brl _ _ rc cond => cond.allowed c && (cond.readsRc || rc == 0#5)
  | .addi _ _ _ | .addi2 _ _ _ | .ori _ _ _ | .ori2 _ _ _ | .andi _ _ _ | .andi2 _ _ _ | .movi _ _ | .movi2 _ _ => true
  | .add _ _ _ | .sub _ _ _ | .not _ _ | .neg _ _ | .or _ _ _ | .and _ _ _ | .xor _ _ _ => true
  | .asr _ _ _ | .asrR _ _ _ | .lsr _ _ _ | .lsrR _ _ _ | .shl _ _ _ | .shlR _ _ _ | .ror _ _ _ | .rorR _ _ _ => true
  | .j _ | .jl _ _ | .ld _ _ _ | .ldr _ _ | .st _ _ _ | .str _ _ | .lea _ _ | .ien | .ids | .rfi => true

end Sys2Proof
end

