-- ==== Sys2Proof/Decode.lean ====
section
/-! DEFINITION. The decoder, total on every 32-bit word (30_encoding R100), and the encoder. Every
instruction is one word (R90); the opcode is bits 31..27. -/

namespace Sys2Proof

/-- Why a word is no instruction. -/
inductive Reserved where
  /-- opcode 28 is unassigned (R107) -/
  | opcode28
  /-- cond 110 or 111 of BR or BRL (R108) -/
  | cond
  /-- an unused bit is set and UNUSED_BITS is `refuse` (R97) -/
  | unusedBits
  deriving DecidableEq, Repr

/-- What a word decodes to: "either to exactly one instruction or to reserved" (R100). -/
inductive Decoded where
  | instr (i : Instr)
  | reserved (r : Reserved)
  deriving DecidableEq, Repr

/-! ## Fields -/

/-- Bits `lo + n - 1 .. lo` of a word (R7). -/
def field (w : Word) (lo n : Nat) : BitVec n := w.extractLsb' lo n

/-- A field's value put at bit `lo` of a word, zeros elsewhere. -/
def place {n : Nat} (v : BitVec n) (lo : Nat) : Word := v.setWidth 32 <<< lo

def opOf (w : Word) : BitVec 5 := field w 27 5
def raOf (w : Word) : Reg := field w 22 5
def rbOf (w : Word) : Reg := field w 17 5
def rcOf (w : Word) : Reg := field w 12 5
def imm17Of (w : Word) : BitVec 17 := field w 0 17
def imm22Of (w : Word) : BitVec 22 := field w 0 22
def shamtOf (w : Word) : BitVec 5 := field w 0 5
/-- The i bit of the shifts: 0 amount from shamt, 1 amount from rc (R96). -/
def iOf (w : Word) : BitVec 1 := field w 5 1
def condOf (w : Word) : BitVec 3 := field w 0 3

/-- R13. -/
def ShiftMode.code : ShiftMode → BitVec 2
  | .shl => 0b00#2
  | .lsr => 0b01#2
  | .asr => 0b10#2
  | .ror => 0b11#2

def ShiftMode.ofCode (c : BitVec 2) : ShiftMode :=
  match c.toNat with
  | 0 => .shl
  | 1 => .lsr
  | 2 => .asr
  | _ => .ror

/-- R14. -/
def Cond.code : Cond → BitVec 3
  | .nv => 0b000#3
  | .al => 0b001#3
  | .eq => 0b010#3
  | .ne => 0b011#3
  | .ge => 0b100#3
  | .lt => 0b101#3
  | .reserved6 => 0b110#3
  | .reserved7 => 0b111#3

def Cond.ofCode (c : BitVec 3) : Cond :=
  match c.toNat with
  | 0 => .nv
  | 1 => .al
  | 2 => .eq
  | 3 => .ne
  | 4 => .ge
  | 5 => .lt
  | 6 => .reserved6
  | _ => .reserved7

/-- The lowest bit of the mode field inside a type-2 word (R93; D5 puts it at 16..15). -/
def Type2Layout.modeLo : Type2Layout → Nat
  | .modeImmShamt | .modeShamtImm => 15
  | .immModeShamt => 5
  | .shamtModeImm => 10
  | .immShamtMode | .shamtImmMode => 0

/-- The lowest bit of imm10 (D5: 14..5). -/
def Type2Layout.immLo : Type2Layout → Nat
  | .modeImmShamt => 5
  | .modeShamtImm | .shamtModeImm => 0
  | .immModeShamt | .immShamtMode => 7
  | .shamtImmMode => 2

/-- The lowest bit of shamt (D5: 4..0). -/
def Type2Layout.shamtLo : Type2Layout → Nat
  | .modeImmShamt | .immModeShamt => 0
  | .modeShamtImm => 10
  | .immShamtMode => 2
  | .shamtModeImm | .shamtImmMode => 12

def type2Of (l : Type2Layout) (w : Word) : Type2 :=
  { mode := ShiftMode.ofCode (field w l.modeLo 2)
    imm10 := field w l.immLo 10
    shamt := field w l.shamtLo 5 }

/-! ## Decoding -/

/-- Format B with its condition decoded: a reserved cond is reserved (R100, R108) unless RESERVED_COND gives it a
meaning; fields the condition does not read are free and read as zeros (R97). -/
def brWith (c : Config) (cond : Cond) (w : Word) : Decoded :=
  if cond.allowed c then
    .instr (.br (if cond.branches then rbOf w else 0#5) (if cond.readsRc then rcOf w else 0#5) cond)
  else .reserved .cond

/-- Format BL, as format B; a BRL's rb is kept whatever the condition (R97 frees only its rc). -/
def brlWith (c : Config) (cond : Cond) (w : Word) : Decoded :=
  if cond.allowed c then
    .instr (.brl (raOf w) (rbOf w) (if cond.readsRc then rcOf w else 0#5) cond)
  else .reserved .cond

/-- The opcode map (R106) with each format's fields (R92 to R104), unused bits not looked at. -/
def decodeFields (c : Config) (w : Word) : Decoded :=
  match (opOf w).toNat with
  | 0 => .instr (.addi (raOf w) (rbOf w) (imm17Of w))
  | 1 => .instr (.addi2 (raOf w) (rbOf w) (type2Of c.type2Layout w))
  | 2 => .instr (.ori (raOf w) (rbOf w) (imm17Of w))
  | 3 => .instr (.ori2 (raOf w) (rbOf w) (type2Of c.type2Layout w))
  | 4 => .instr (.andi (raOf w) (rbOf w) (imm17Of w))
  | 5 => .instr (.andi2 (raOf w) (rbOf w) (type2Of c.type2Layout w))
  | 6 => .instr (.movi (raOf w) (imm17Of w))
  | 7 => .instr (.movi2 (raOf w) (type2Of c.type2Layout w))
  | 8 => .instr (.add (raOf w) (rbOf w) (rcOf w))
  | 9 => .instr (.sub (raOf w) (rbOf w) (rcOf w))
  | 10 => .instr (.not (raOf w) (rcOf w))
  | 11 => .instr (.neg (raOf w) (rcOf w))
  | 12 => .instr (.or (raOf w) (rbOf w) (rcOf w))
  | 13 => .instr (.and (raOf w) (rbOf w) (rcOf w))
  | 14 => .instr (.xor (raOf w) (rbOf w) (rcOf w))
  | 15 => .instr (if iOf w = 0#1 then .asr (raOf w) (rbOf w) (shamtOf w) else .asrR (raOf w) (rbOf w) (rcOf w))
  | 16 => .instr (if iOf w = 0#1 then .lsr (raOf w) (rbOf w) (shamtOf w) else .lsrR (raOf w) (rbOf w) (rcOf w))
  | 17 => .instr (if iOf w = 0#1 then .shl (raOf w) (rbOf w) (shamtOf w) else .shlR (raOf w) (rbOf w) (rcOf w))
  | 18 => .instr (if iOf w = 0#1 then .ror (raOf w) (rbOf w) (shamtOf w) else .rorR (raOf w) (rbOf w) (rcOf w))
  | 19 => brWith c (Cond.ofCode (condOf w)) w
  | 20 => brlWith c (Cond.ofCode (condOf w)) w
  | 21 => .instr (.j (imm22Of w))
  | 22 => .instr (.jl (raOf w) (imm22Of w))
  | 23 => .instr (.ld (raOf w) (rbOf w) (imm17Of w))
  | 24 => .instr (.ldr (raOf w) (imm22Of w))
  | 25 => .instr (.st (raOf w) (rbOf w) (imm17Of w))
  | 26 => .instr (.str (raOf w) (imm22Of w))
  | 27 => .instr (.lea (raOf w) (imm22Of w))
  | 28 => .reserved .opcode28
  | 29 => .instr .ien
  | 30 => .instr .ids
  | 31 => .instr .rfi
  | _ => .reserved .opcode28

/-- The rc field, where a BRL's condition does not read it (R97). -/
def unreadByBrl (cond : Cond) : Word := if cond.readsRc then 0#32 else 0x0001F000#32

/-- The rb and rc fields, where a BR's condition does not read them (R97). -/
def unreadByBr (cond : Cond) : Word := (if cond.branches then 0#32 else 0x003E0000#32) ||| unreadByBrl cond

/-- The bits of a word that no rule reads, by format (R97): among them rc or shamt of the shift variant
that does not read it, and the fields a BR or BRL's condition does not read. -/
def unusedMask (w : Word) : Word :=
  match (opOf w).toNat with
  | 0 | 1 | 2 | 3 | 4 | 5 | 22 | 23 | 24 | 25 | 26 | 27 => 0#32
  | 6 | 7 => 0x003E0000#32
  | 8 | 9 | 12 | 13 | 14 => 0x00000FFF#32
  | 10 | 11 => 0x003E0FFF#32
  | 15 | 16 | 17 | 18 => if iOf w = 0#1 then 0x0001FFC0#32 else 0x00000FDF#32
  | 19 => 0x07C00FF8#32 ||| unreadByBr (Cond.ofCode (condOf w))
  | 20 => 0x00000FF8#32 ||| unreadByBrl (Cond.ofCode (condOf w))
  | 21 => 0x07C00000#32
  | 29 | 30 | 31 => 0x07FFFFFF#32
  | _ => 0#32

/-- UNUSED_BITS = `refuse` turns away a word that has an unused bit set (R97, U3). -/
def hasForbiddenBits (c : Config) (w : Word) : Bool :=
  c.unusedBits == .refuse && w &&& unusedMask w != 0#32

/-- The decoder (R100). DESIGN CHOICE: with UNUSED_BITS = `refuse` a BR or BRL word that has both a reserved cond and an
unused bit set meets two refusals, to which R97, R108 and 93 section 1 give no order; it is reserved for its cond
(log 35). -/
def decodeWord (c : Config) (w : Word) : Decoded :=
  match decodeFields c w with
  | .reserved r => .reserved r
  | .instr i => if hasForbiddenBits c w then .reserved .unusedBits else .instr i

/-! ## Encoding: unused bits are written as zeros (R97) -/

def encodeType2 (l : Type2Layout) (t : Type2) : Word :=
  place t.mode.code l.modeLo ||| place t.imm10 l.immLo ||| place t.shamt l.shamtLo

/-- Format I1 and M: op, ra, rb, imm17 (R92, R103). -/
def encodeI1 (op : BitVec 5) (ra rb : Reg) (imm17 : BitVec 17) : Word :=
  place op 27 ||| place ra 22 ||| place rb 17 ||| place imm17 0

/-- Format I2: op, ra, rb and the three fields of a type-2 operand (R93). -/
def encodeI2 (c : Config) (op : BitVec 5) (ra rb : Reg) (t : Type2) : Word :=
  place op 27 ||| place ra 22 ||| place rb 17 ||| encodeType2 c.type2Layout t

/-- Format R3, and R2 with rb written as zero: op, ra, rb, rc (R94, R95). -/
def encodeR3 (op : BitVec 5) (ra rb rc : Reg) : Word :=
  place op 27 ||| place ra 22 ||| place rb 17 ||| place rc 12

/-- Format SH: op, ra, rb, rc, i, shamt (R96). -/
def encodeSH (op : BitVec 5) (ra rb rc : Reg) (i : BitVec 1) (shamt : BitVec 5) : Word :=
  place op 27 ||| place ra 22 ||| place rb 17 ||| place rc 12 ||| place i 5 ||| place shamt 0

/-- Format BL, and B with ra written as zero: op, ra, rb, rc, cond (R98, R99). -/
def encodeBL (op : BitVec 5) (ra rb rc : Reg) (cond : Cond) : Word :=
  place op 27 ||| place ra 22 ||| place rb 17 ||| place rc 12 ||| place cond.code 0

/-- Format JR, and J with ra written as zero: op, ra, imm22 (R101, R102). -/
def encodeJR (op : BitVec 5) (ra : Reg) (imm22 : BitVec 22) : Word :=
  place op 27 ||| place ra 22 ||| place imm22 0

/-- The instruction's word, from the format tables of 30_encoding and the opcodes of R106. -/
def encode (c : Config) : Instr → Word
  | .addi ra rb imm17 => encodeI1 0#5 ra rb imm17
  | .addi2 ra rb t => encodeI2 c 1#5 ra rb t
  | .ori ra rb imm17 => encodeI1 2#5 ra rb imm17
  | .ori2 ra rb t => encodeI2 c 3#5 ra rb t
  | .andi ra rb imm17 => encodeI1 4#5 ra rb imm17
  | .andi2 ra rb t => encodeI2 c 5#5 ra rb t
  | .movi ra imm17 => encodeI1 6#5 ra 0#5 imm17
  | .movi2 ra t => encodeI2 c 7#5 ra 0#5 t
  | .add ra rb rc => encodeR3 8#5 ra rb rc
  | .sub ra rb rc => encodeR3 9#5 ra rb rc
  | .not ra rc => encodeR3 10#5 ra 0#5 rc
  | .neg ra rc => encodeR3 11#5 ra 0#5 rc
  | .or ra rb rc => encodeR3 12#5 ra rb rc
  | .and ra rb rc => encodeR3 13#5 ra rb rc
  | .xor ra rb rc => encodeR3 14#5 ra rb rc
  | .asr ra rb shamt => encodeSH 15#5 ra rb 0#5 0#1 shamt
  | .asrR ra rb rc => encodeSH 15#5 ra rb rc 1#1 0#5
  | .lsr ra rb shamt => encodeSH 16#5 ra rb 0#5 0#1 shamt
  | .lsrR ra rb rc => encodeSH 16#5 ra rb rc 1#1 0#5
  | .shl ra rb shamt => encodeSH 17#5 ra rb 0#5 0#1 shamt
  | .shlR ra rb rc => encodeSH 17#5 ra rb rc 1#1 0#5
  | .ror ra rb shamt => encodeSH 18#5 ra rb 0#5 0#1 shamt
  | .rorR ra rb rc => encodeSH 18#5 ra rb rc 1#1 0#5
  | .br rb rc cond => encodeBL 19#5 0#5 rb rc cond
  | .brl ra rb rc cond => encodeBL 20#5 ra rb rc cond
  | .j imm22 => encodeJR 21#5 0#5 imm22
  | .jl ra imm22 => encodeJR 22#5 ra imm22
  | .ld ra rb imm17 => encodeI1 23#5 ra rb imm17
  | .ldr ra imm22 => encodeJR 24#5 ra imm22
  | .st ra rb imm17 => encodeI1 25#5 ra rb imm17
  | .str ra imm22 => encodeJR 26#5 ra imm22
  | .lea ra imm22 => encodeJR 27#5 ra imm22
  | .ien => place 29#5 27
  | .ids => place 30#5 27
  | .rfi => place 31#5 27

/-- The host's question about one row of the opcode table: what the decoder of a machine with the
decided parameters reads from the word `w` of `nbits` bits (every row has 32). -/
def decodeTableWord (nbits w : Nat) : Option Instr :=
  match decodeWord Config.decided (BitVec.ofNat 32 (w % 2 ^ nbits)) with
  | .instr i => some i
  | .reserved _ => none

end Sys2Proof
end

