-- ==== Sys2Proof/Machine/State.lean ====
section
/-! DEFINITION. The state of a KRP machine as plain data (10_state R30, R41, R45), what its environment
supplies and observes (R17, R44, R267), the reasons a step stops, and the state after reset. -/

namespace Sys2Proof.Machine

/-- A memory: "an array of 32-bit words indexed by `a[31:2]`", with no byte order at all (R63, D1). It lists the
words that are not zero, their indices strictly rising and below 2^30 (`Memory.wf`). An unlisted word reads as 0
(log 6). -/
abbrev Memory := List (Nat × Word)

/-- The two input pins as the environment drives them at one instruction boundary (R17, R44, R263). -/
structure Pins where
  /-- RST high (R300) -/
  rst : Bool
  /-- IREQ asserted (R263) -/
  ireq : Bool
  deriving DecidableEq, Repr

/-- Neither reset nor request; what the pins are after the listed inputs (log 9). -/
def Pins.idle : Pins := { rst := false, ireq := false }

/-- What the machine does that only its environment can observe. -/
inductive Output where
  /-- the IACK event of one interrupt entry (R267, D20) -/
  | iack
  /-- a word stored to a data address behind which the platform has a device (R68, log 22) -/
  | deviceWrite (index : WordIndex) (value : Word)
  deriving DecidableEq, Repr

/-- A stop of the hardware itself: "stuck", waiting for a ready signal that never comes (R70, D26, U16). -/
inductive Fault where
  /-- raised by the fetch: PC lies outside PMEM_RANGE. Safe: the spec gives no further step (log 8). -/
  | stuckFetch
  /-- raised by LD, LDR, ST, STR: the address lies outside DMEM_RANGE. Safe, as above (log 8). -/
  | stuckData
  deriving DecidableEq, Repr

/-- A situation to which the spec gives no meaning, "refuse(reason)" (R10; the list closes 93 section 1).
Each is safe: the model stops where the hardware does something unknown. -/
inductive Refusal where
  /-- raised by an arm of `exec` whose instruction has no meaning yet -/
  | notModelled (mnemonic : String)
  /-- raised by decoding a word with opcode 28 (R107, U1) -/
  | reservedOpcode
  /-- raised by decoding, or running, a BR or BRL with cond 110 or 111 (R108, R193, U2) -/
  | reservedCond
  /-- raised by decoding when UNUSED_BITS is `refuse` (R97, U3) -/
  | unusedBits
  /-- raised by J, JL, BR, BRL, RFI, or the fetch, at an address that is no multiple of 4 (R35, R192, U8) -/
  | misalignedTarget
  /-- raised by LD, LDR, ST, STR when MISALIGNED_DATA is `refuse` (R64, U7) -/
  | misalignedData
  /-- raised by J, JL, RFI, or a taken BR or BRL, in the delay slot of a taken branch (R201, U9) -/
  | transferInDelaySlot
  /-- raised by a BRL whose link register is also its target or tested register (R200, U10) -/
  | linkOverlap
  /-- raised at the boundary between a taken branch and its delay slot (R269, U11) -/
  | irqInDelaySlot
  deriving DecidableEq, Repr

/-- The state of the machine. -/
structure State where
  /-- x[0] .. x[31]; x[31] is IPC (R37, R38) -/
  regs : Vector Word 32
  /-- PC (R31); while an instruction executes it holds currentPC, the instruction's address + 4 (R32) -/
  pc : Word
  /-- IR (R36) -/
  ir : Word
  /-- IE (R46) -/
  ie : Bool
  /-- the pending branch target (R39) -/
  bt : Option Word
  /-- `slot` of the instruction cycle (R42 step C5): set only while a delay-slot instruction executes -/
  slot : Option Word
  /-- program memory (R41, R60) -/
  pmem : Memory
  /-- data memory (R41, R60) -/
  dmem : Memory
  /-- RST(t) and IREQ(t): the pins at the coming instruction boundaries, the next one first (R17, R263) -/
  inputs : List Pins
  /-- IACK events and device stores so far, oldest first (R267) -/
  outputs : List Output
  /-- how many free values have been drawn; the model's own counter (log 26) -/
  draws : Nat
  /-- the machine's parameters; no step changes them (log 24) -/
  config : Config
  deriving DecidableEq, Repr

/-- The machine right after reset (R45, R302): PC = 0, IE = 0, no branch pending; the registers and IR,
which the spec leaves unspecified, at the zeros of logs 2 and 3; nothing listed in either memory (log 6).
DESIGN CHOICE: RST(t) and IREQ(t) are open (D33, D18) and have no default in the spec; here no sample is listed, so
that neither is ever asserted in a run from this state (log 9). -/
def State.reset : State :=
  { regs := Vector.replicate 32 0#32
    pc := 0#32
    ir := 0#32
    ie := false
    bt := none
    slot := none
    pmem := []
    dmem := []
    inputs := []
    outputs := []
    draws := 0
    config := Config.decided }

end Sys2Proof.Machine
end

