-- ==== Sys2Proof/Machine/Ops.lean ====
section
/-! DEFINITION. The named operations over registers, memories and the instruction cycle: everything the
meanings and `step` are made of. -/

namespace Sys2Proof.Machine

/-! ## Addresses -/

/-- `a[31:2]`, what the 30 address pins carry (R44, R61, R64). -/
def wordIndex (a : Word) : WordIndex := a.extractLsb' 2 30

/-- `a[1:0] == 00`. -/
def isAligned (a : Word) : Bool := a.extractLsb' 0 2 == 0#2

/-- The byte address of word `i`. -/
def addressOf (i : WordIndex) : Word := i ++ 0#2

/-- INT_VECTOR as a byte address (R268). -/
def intVector (c : Config) : Word := addressOf c.intVector

/-- Is word `i` implemented by one of the spans (R41)? -/
def implemented (spans : List Span) (i : WordIndex) : Bool :=
  spans.any fun s => decide (s.base ≤ i.toNat ∧ i.toNat < s.base + s.size)

/-! ## Memories: arrays of words in one canonical form, reached by whole words only (R60, R63, R66) -/

/-- The word with index `i`; 0 where nothing is listed (log 6). -/
def Memory.get : Memory → Nat → Word
  | [], _ => 0#32
  | (k, w) :: m, i => if k = i then w else Memory.get m i

/-- Put a word at index `i`, keeping the canonical form. -/
def Memory.put : Memory → Nat → Word → Memory
  | [], i, v => if v = 0#32 then [] else [(i, v)]
  | (k, w) :: m, i, v =>
    if i < k then (if v = 0#32 then (k, w) :: m else (i, v) :: (k, w) :: m)
    else if k = i then (if v = 0#32 then m else (i, v) :: m)
    else (k, w) :: Memory.put m i v

/-- Every listed index is at least `lo`, strictly rising, below 2^30, and lists a word that is not 0. -/
def Memory.canonicalFrom : Nat → Memory → Bool
  | _, [] => true
  | lo, (k, w) :: m =>
    decide (lo ≤ k) && decide (k < 0x40000000) && w != 0#32 && Memory.canonicalFrom (k + 1) m

/-- The canonical form: equal memories are equal lists. -/
def Memory.wf (m : Memory) : Bool := Memory.canonicalFrom 0 m

/-- The word `M[i]` (R41, R63), the only read of a memory (R66). -/
def Memory.word (m : Memory) (i : WordIndex) : Word := m.get i.toNat

/-- `M[i] <- v`, the only write (R66). -/
def Memory.setWord (m : Memory) (i : WordIndex) (v : Word) : Memory := m.put i.toNat v

/-! ## Reading and updating the state -/

/-- `x[r]` (R10, R38): no register is hard-wired. -/
def State.reg (s : State) (r : Reg) : Word := s.regs[r.toNat]'r.isLt

/-- `x[r] <- v` (R10); register 31 is IPC (R37). -/
def State.setReg (s : State) (r : Reg) (v : Word) : State := { s with regs := s.regs.set r.toNat v r.isLt }

/-- IPC and `x[31]` are one cell (R37). -/
def ipc : Reg := 31#5

def State.setPc (s : State) (a : Word) : State := { s with pc := a }
def State.setIe (s : State) (b : Bool) : State := { s with ie := b }
def State.setBt (s : State) (t : Option Word) : State := { s with bt := t }
def State.setDmem (s : State) (m : Memory) : State := { s with dmem := m }
def State.emit (s : State) (o : Output) : State := { s with outputs := s.outputs ++ [o] }

/-- The next free value, and the state that has drawn it. -/
def State.fresh (s : State) : Word := Config.freeWord s.draws
def State.drawn (s : State) : State := { s with draws := s.draws + 1 }

/-- The read of one word of data memory, by which the frames speak of memory: D1 allows no smaller one. -/
def State.dataWord (s : State) (i : WordIndex) : Word := s.dmem.word i

/-- The read of one word of program memory. -/
def State.progWord (s : State) (i : WordIndex) : Word := s.pmem.word i

/-- An instruction's ordinary end: `x[ra] <- v` and nothing else. -/
def writeReg (ra : Reg) (v : Word) (s : State) : Host.Outcome State Fault Refusal := .next (s.setReg ra v)

/-! ## Data accesses (R62, R64, R68, R70) -/

/-- Does MISALIGNED_DATA turn the address away (R64, D2)? -/
def misalignedDataRefused (c : Config) (ea : Word) : Bool := c.misalignedData == .refuse && !isAligned ea

/-- `x[ra] <- MemRead(ea, 4)` (R62). Outside DMEM_RANGE the processor is stuck (R70); a device supplies any
value (R68, U21). DESIGN CHOICE: the spec gives no order between the refusal of R64 and the stuck access of R70; an
address that meets both is refused (log 34). -/
def loadWord (ra : Reg) (ea : Word) (s : State) : Host.Outcome State Fault Refusal :=
  if misalignedDataRefused s.config ea then .refused .misalignedData
  else if !implemented s.config.dmemRange (wordIndex ea) then .fault .stuckData
  else if implemented s.config.deviceRange (wordIndex ea) then .next (s.drawn.setReg ra s.fresh)
  else .next (s.setReg ra (s.dmem.word (wordIndex ea)))

/-- `MemWrite(ea, 4, v)` (R62). A device gets the word and no memory changes (R68, log 22). DESIGN CHOICE: an address
that both R64 refuses and R70 leaves stuck is refused, as in `loadWord` (log 34). -/
def storeWord (ea v : Word) (s : State) : Host.Outcome State Fault Refusal :=
  if misalignedDataRefused s.config ea then .refused .misalignedData
  else if !implemented s.config.dmemRange (wordIndex ea) then .fault .stuckData
  else if implemented s.config.deviceRange (wordIndex ea) then .next (s.emit (.deviceWrite (wordIndex ea) v))
  else .next (s.setDmem (s.dmem.setWord (wordIndex ea) v))

/-! ## Control transfer (R35, R192, R201) -/

/-- The address a control transfer to `t` loads, by MISALIGNED_PC; none where it is refused (R35, D3). -/
def targetOf (c : Config) (t : Word) : Option Word :=
  if isAligned t then some t
  else match c.misalignedPc with
    | .refuse => none
    | .clearBits => some (addressOf (wordIndex t))
    | .keepBits => some t

/-- The delayed-branch primitive `bt <- t` (R192). -/
def delayedBranch (t : Word) (s : State) : Host.Outcome State Fault Refusal :=
  if s.slot.isSome then .refused .transferInDelaySlot
  else match targetOf s.config t with
    | none => .refused .misalignedTarget
    | some a => .next (s.setBt (some a))

/-! ## The interrupt: entry and return (R252, R266) -/

/-- Interrupt entry: IPC gets PC, IE is cleared, IACK is asserted, PC gets INT_VECTOR. Under the decided
parameters it happens only with `bt` = none (R269). -/
def interruptEntry (s : State) : State :=
  (((s.setReg ipc s.pc).setIe false).emit .iack).setPc (intVector s.config)

/-- Return from interrupt: PC gets IPC at once, with no delay slot, and IE is set (R252, R271). -/
def interruptReturn (s : State) : Host.Outcome State Fault Refusal :=
  if s.slot.isSome then .refused .transferInDelaySlot
  else match targetOf s.config (s.reg ipc) with
    | none => .refused .misalignedTarget
    | some a => .next ((s.setPc a).setIe true)

/-! ## RST (R300 to R302) -/

/-- The registers after RST: each holds a free value, since "a model must not assume zero and must not
assume that the value before reset is kept" (R45). -/
@[irreducible] def unspecifiedRegs (draws : Nat) : Vector Word 32 := Vector.ofFn fun k => Config.freeWord (draws + k.val)

/-- RST high: IE and PC are zero, no branch is pending, memory is untouched, IR and the registers are
unspecified (R300, R302); no instruction executes. -/
def resetEvent (s : State) : State :=
  { s with
    regs := unspecifiedRegs s.draws
    ir := Config.freeWord (s.draws + 32)
    draws := s.draws + 33
    pc := 0#32
    ie := false
    bt := none
    slot := none }

/-! ## The instruction cycle (R42) -/

/-- The pins at the coming boundary. -/
def State.pins (s : State) : Pins := s.inputs.headD .idle

/-- The boundary is past: its sample is used up. -/
def State.sampled (s : State) : State := { s with inputs := s.inputs.tail }

/-- What an instruction boundary leads to (R42 steps C0, C1). -/
inductive Boundary where
  | reset
  | entry
  | refuse
  | run
  deriving DecidableEq, Repr

/-- C0: RST overrides everything (R265). C1: a request with IE set is taken, unless a branch is pending,
where IRQ_IN_DELAY_SLOT decides (R263, R269). -/
def boundary (s : State) : Boundary :=
  if s.pins.rst then .reset
  else if s.ie && s.pins.ireq then
    match s.bt, s.config.irqInDelaySlot with
    | none, _ => .entry
    | some _, .refuse => .refuse
    | some _, .hold => .run
  else .run

/-- What a fetch ends in. -/
inductive Fetched where
  | word (w : Word)
  | misaligned
  | stuck
  deriving DecidableEq, Repr

/-- C2, C3: `ProgRead(pc)` (R61, R65, R70). DESIGN CHOICE: a PC that is no multiple of 4, which no run reaches, is
refused, and before PMEM_RANGE is looked at (log 30). -/
def fetch (s : State) : Fetched :=
  if !isAligned s.pc && s.config.misalignedPc != .keepBits then .misaligned
  else if implemented s.config.pmemRange (wordIndex s.pc) then .word (s.pmem.word (wordIndex s.pc))
  else .stuck

/-- C3 to C5: IR gets the word, PC is increased by 4 modulo 2^32 (R32, R33), a pending target moves to `slot`. -/
def issue (w : Word) (s : State) : State :=
  { s with ir := w, pc := s.pc + 4#32, slot := s.bt, bt := none }

/-- C7: after a delay-slot instruction PC gets the target (R42, R43). -/
def retire (s : State) : State :=
  match s.slot with
  | none => s
  | some t => { s with pc := t, slot := none }

/-- C7 on an outcome: only a next state is retired. -/
def retireOutcome : Host.Outcome State Fault Refusal → Host.Outcome State Fault Refusal
  | .next s => .next (retire s)
  | .fault f => .fault f
  | .refused r => .refused r

/-- A reserved word stops the machine under its own name (R100, R107, R108). -/
def reservedRefusal : Reserved → Refusal
  | .opcode28 => .reservedOpcode
  | .cond => .reservedCond
  | .unusedBits => .unusedBits

/-! ## Placing an instruction where it is fetched next (log 25) -/

/-- The same boundary with neither RST nor a request, so that the fetch happens. -/
def quietInputs : List Pins → List Pins
  | [] => []
  | _ :: rest => .idle :: rest

/-- Program memory gets `w` at PC's word. -/
def placeAtPc (w : Word) (s : State) : State :=
  { s with pmem := s.pmem.setWord (wordIndex s.pc) w, inputs := quietInputs s.inputs }

end Sys2Proof.Machine
end

