-- ==== Sys2Proof/Machine/Operands.lean ====
section
/-! DEFINITION. Operand forms: sign extension (R11), the four shift functions (R12), the second operand of
the immediate instructions (R130), shift amounts (R170) and effective addresses (R221, R223). -/

namespace Sys2Proof.Machine

/-- `sext_32` (R11). -/
def sext {n : Nat} (v : BitVec n) : Word := v.signExtend 32

/-- R12; `SHL32(v, n)`. -/
def shl32 (v : Word) (n : BitVec 5) : Word := v <<< n.toNat

/-- R12; `LSR32(v, n)`. -/
def lsr32 (v : Word) (n : BitVec 5) : Word := v >>> n.toNat

/-- R12, D12; `ASR32(v, n)`. -/
def asr32 (v : Word) (n : BitVec 5) : Word := v.sshiftRight n.toNat

/-- R12, D12; `ROR32(v, n)`. -/
def ror32 (v : Word) (n : BitVec 5) : Word := v.rotateRight n.toNat

/-- The shift a mode names (R13, R105). -/
def shiftBy : ShiftMode → Word → BitVec 5 → Word
  | .shl => shl32
  | .lsr => lsr32
  | .asr => asr32
  | .ror => ror32

/-- `Op2_type2`: extend first, shift second (R105, R130). -/
def type2Value (t : Type2) : Word := shiftBy t.mode (sext t.imm10) t.shamt

/-- The amount of a shift by register: `x[rc][4:0]` (R170). -/
def regAmount (s : State) (rc : Reg) : BitVec 5 := (s.reg rc).extractLsb' 0 5

/-- The rb field value that selects absolute addressing in LD and ST (R103, R221). -/
def absoluteBase : Reg := 31#5

/-- `EA_M`: absolute or base + displacement, modulo 2^32 (R72, R221). -/
def addressM (rb : Reg) (imm17 : BitVec 17) (s : State) : Word :=
  if rb = absoluteBase then sext imm17 else s.reg rb + sext imm17

/-- `cpc + sext_32(imm22)`, modulo 2^32 (R72, R105); PC holds cpc while an instruction executes (R32). -/
def addressPc (imm22 : BitVec 22) (s : State) : Word := s.pc + sext imm22

end Sys2Proof.Machine
end

