-- ==== Sys2Proof/Machine/Flags.lean ====
section
/-! DEFINITION. KRP has no condition flags (R46, R150): its only flag is IE. What other machines compute from
flags, a BR or BRL computes from a register: the condition (R193) and the BRL overlap (R200). -/

namespace Sys2Proof.Machine

/-- `Taken(cond, v)`; none where the condition is reserved and refused (R193, R194, R108). -/
def taken (c : Config) (cond : Cond) (v : Word) : Option Bool :=
  match cond with
  | .nv => some false
  | .al => some true
  | .eq => some (v == 0#32)
  | .ne => some (v != 0#32)
  | .ge => some (!v.msb)
  | .lt => some v.msb
  | .reserved6 | .reserved7 =>
    match c.reservedCond with
    | .refuse => none
    | .notTaken => some false

/-- "cond in 010..101": the conditions that read `x[rc]` (R193, R197). -/
def testsRc : Cond → Bool
  | .eq | .ne | .ge | .lt => true
  | .nv | .al | .reserved6 | .reserved7 => false

/-- A BRL's link register is a register it reads (R197, R200). -/
def linkOverlaps (ra rb rc : Reg) (cond : Cond) : Bool :=
  (cond != .nv && ra == rb) || (testsRc cond && ra == rc)

end Sys2Proof.Machine
end

