-- ==== Sys2Proof/Machine/ControlTransfer.lean ====
section
/-! DEFINITION. BR, BRL, J, JL (43_branch_jump): a taken transfer takes effect after the next instruction
(R191, R192). The link value is currentPC, the address of the delay slot (R195). -/

namespace Sys2Proof.Machine

/-- R196. -/
def execBr (rb rc : Reg) (cond : Cond) (s : State) : Host.Outcome State Fault Refusal :=
  match taken s.config cond (s.reg rc) with
  | none => .refused .reservedCond
  | some false => .next s
  | some true => delayedBranch (s.reg rb) s

/-- The link, then the branch, with target and tested value read from `old` (R197). -/
def linkAndBranch (old : State) (ra rb rc : Reg) (cond : Cond) (s : State) : Host.Outcome State Fault Refusal :=
  match taken s.config cond (old.reg rc) with
  | none => .refused .reservedCond
  | some false => .next (s.setReg ra s.pc)
  | some true => delayedBranch (old.reg rb) (s.setReg ra s.pc)

/-- R197: the link register is written "regardless of whether the condition is satisfied or not". Where it
is also a source, BRL_OVERLAP decides (R200, D15). -/
def execBrl (ra rb rc : Reg) (cond : Cond) (s : State) : Host.Outcome State Fault Refusal :=
  if linkOverlaps ra rb rc cond then
    match s.config.brlOverlap with
    | .refuse => .refused .linkOverlap
    | .oldValues => linkAndBranch s ra rb rc cond s
    | .newValues => linkAndBranch (s.setReg ra s.pc) ra rb rc cond s
  else linkAndBranch s ra rb rc cond s

/-- R198. -/
def execJ (imm22 : BitVec 22) (s : State) : Host.Outcome State Fault Refusal :=
  delayedBranch (addressPc imm22 s) s

/-- R199. -/
def execJl (ra : Reg) (imm22 : BitVec 22) (s : State) : Host.Outcome State Fault Refusal :=
  delayedBranch (addressPc imm22 s) (s.setReg ra s.pc)

end Sys2Proof.Machine
end

