-- ==== Sys2Proof/Machine/ImmediateAlu.lean ====
section
/-! DEFINITION. ADDI, ORI, ANDI, MOVI (40_immediate_alu). No flag, no exception (R139). -/

namespace Sys2Proof.Machine

/-- R131. -/
def execAddi (ra rb : Reg) (imm17 : BitVec 17) (s : State) : Host.Outcome State Fault Refusal :=
  writeReg ra (s.reg rb + sext imm17) s

/-- R132. -/
def execAddi2 (ra rb : Reg) (op2 : Type2) (s : State) : Host.Outcome State Fault Refusal :=
  writeReg ra (s.reg rb + type2Value op2) s

/-- R133. -/
def execOri (ra rb : Reg) (imm17 : BitVec 17) (s : State) : Host.Outcome State Fault Refusal :=
  writeReg ra (s.reg rb ||| sext imm17) s

/-- R134. -/
def execOri2 (ra rb : Reg) (op2 : Type2) (s : State) : Host.Outcome State Fault Refusal :=
  writeReg ra (s.reg rb ||| type2Value op2) s

/-- R135. -/
def execAndi (ra rb : Reg) (imm17 : BitVec 17) (s : State) : Host.Outcome State Fault Refusal :=
  writeReg ra (s.reg rb &&& sext imm17) s

/-- R136. -/
def execAndi2 (ra rb : Reg) (op2 : Type2) (s : State) : Host.Outcome State Fault Refusal :=
  writeReg ra (s.reg rb &&& type2Value op2) s

/-- R137. -/
def execMovi (ra : Reg) (imm17 : BitVec 17) (s : State) : Host.Outcome State Fault Refusal :=
  writeReg ra (sext imm17) s

/-- R138. -/
def execMovi2 (ra : Reg) (op2 : Type2) (s : State) : Host.Outcome State Fault Refusal :=
  writeReg ra (type2Value op2) s

end Sys2Proof.Machine
end

