-- ==== Sys2Proof/Machine/InterruptControl.lean ====
section
/-! DEFINITION. IEN, IDS, RFI (45_interrupt_control). There is one privilege level, so all three may always run
(R253, R275); the new IE is seen by the next boundary (R314). -/

namespace Sys2Proof.Machine

/-- R250. -/
def execIen (s : State) : Host.Outcome State Fault Refusal := .next (s.setIe true)

/-- R251. -/
def execIds (s : State) : Host.Outcome State Fault Refusal := .next (s.setIe false)

/-- R252. -/
def execRfi (s : State) : Host.Outcome State Fault Refusal := interruptReturn s

end Sys2Proof.Machine
end

