-- ==== Sys2Proof/Machine/LoadStore.lean ====
section
/-! DEFINITION. LD, LDR, ST, STR, LEA (44_load_store). All accesses are whole words of data memory, LDR's and
STR's among them (R62, D16). -/

namespace Sys2Proof.Machine

/-- R222. -/
def execLd (ra rb : Reg) (imm17 : BitVec 17) (s : State) : Host.Outcome State Fault Refusal :=
  loadWord ra (addressM rb imm17 s) s

/-- R223. -/
def execLdr (ra : Reg) (imm22 : BitVec 22) (s : State) : Host.Outcome State Fault Refusal :=
  loadWord ra (addressPc imm22 s) s

/-- R224. -/
def execSt (ra rb : Reg) (imm17 : BitVec 17) (s : State) : Host.Outcome State Fault Refusal :=
  storeWord (addressM rb imm17 s) (s.reg ra) s

/-- R225. -/
def execStr (ra : Reg) (imm22 : BitVec 22) (s : State) : Host.Outcome State Fault Refusal :=
  storeWord (addressPc imm22 s) (s.reg ra) s

/-- R226. -/
def execLea (ra : Reg) (imm22 : BitVec 22) (s : State) : Host.Outcome State Fault Refusal :=
  writeReg ra (addressPc imm22 s) s

end Sys2Proof.Machine
end

