-- ==== Sys2Proof/Machine/RegisterAlu.lean ====
section
/-! DEFINITION. ADD, SUB, NOT, NEG, OR, AND, XOR (41_register_alu). Sums and differences are modulo 2^32;
no flag, no exception (R150, R158). -/

namespace Sys2Proof.Machine

/-- R151. -/
def execAdd (ra rb rc : Reg) (s : State) : Host.Outcome State Fault Refusal :=
  writeReg ra (s.reg rb + s.reg rc) s

/-- R152: "rc is subtracted from rb". -/
def execSub (ra rb rc : Reg) (s : State) : Host.Outcome State Fault Refusal :=
  writeReg ra (s.reg rb - s.reg rc) s

/-- R153. -/
def execNot (ra rc : Reg) (s : State) : Host.Outcome State Fault Refusal :=
  writeReg ra (~~~ s.reg rc) s

/-- R154. -/
def execNeg (ra rc : Reg) (s : State) : Host.Outcome State Fault Refusal :=
  writeReg ra (0#32 - s.reg rc) s

/-- R155. -/
def execOr (ra rb rc : Reg) (s : State) : Host.Outcome State Fault Refusal :=
  writeReg ra (s.reg rb ||| s.reg rc) s

/-- R156. -/
def execAnd (ra rb rc : Reg) (s : State) : Host.Outcome State Fault Refusal :=
  writeReg ra (s.reg rb &&& s.reg rc) s

/-- R157. -/
def execXor (ra rb rc : Reg) (s : State) : Host.Outcome State Fault Refusal :=
  writeReg ra (s.reg rb ^^^ s.reg rc) s

end Sys2Proof.Machine
end

