-- ==== Sys2Proof/Machine/Shift.lean ====
section
/-! DEFINITION. ASR, LSR, SHL, ROR by an immediate and by a register amount (42_shift). The amount is always
0..31 (R170); no flag, no exception (R171). -/

namespace Sys2Proof.Machine

/-- R172, i = 0. -/
def execAsr (ra rb : Reg) (shamt : BitVec 5) (s : State) : Host.Outcome State Fault Refusal :=
  writeReg ra (asr32 (s.reg rb) shamt) s

/-- R172, i = 1. -/
def execAsrR (ra rb rc : Reg) (s : State) : Host.Outcome State Fault Refusal :=
  writeReg ra (asr32 (s.reg rb) (regAmount s rc)) s

/-- R173, i = 0. -/
def execLsr (ra rb : Reg) (shamt : BitVec 5) (s : State) : Host.Outcome State Fault Refusal :=
  writeReg ra (lsr32 (s.reg rb) shamt) s

/-- R173, i = 1. -/
def execLsrR (ra rb rc : Reg) (s : State) : Host.Outcome State Fault Refusal :=
  writeReg ra (lsr32 (s.reg rb) (regAmount s rc)) s

/-- R174, i = 0. -/
def execShl (ra rb : Reg) (shamt : BitVec 5) (s : State) : Host.Outcome State Fault Refusal :=
  writeReg ra (shl32 (s.reg rb) shamt) s

/-- R174, i = 1. -/
def execShlR (ra rb rc : Reg) (s : State) : Host.Outcome State Fault Refusal :=
  writeReg ra (shl32 (s.reg rb) (regAmount s rc)) s

/-- R175, i = 0. -/
def execRor (ra rb : Reg) (shamt : BitVec 5) (s : State) : Host.Outcome State Fault Refusal :=
  writeReg ra (ror32 (s.reg rb) shamt) s

/-- R175, i = 1. -/
def execRorR (ra rb rc : Reg) (s : State) : Host.Outcome State Fault Refusal :=
  writeReg ra (ror32 (s.reg rb) (regAmount s rc)) s

end Sys2Proof.Machine
end

