-- ==== Sys2Proof/Machine/Dispatch.lean ====
section
/-! DEFINITION. `exec`: one meaning for each instruction (R42 step C6). -/

namespace Sys2Proof.Machine

def exec (i : Instr) (s : State) : Host.Outcome State Fault Refusal :=
  match i with
  | .addi ra rb imm17 => Sys2Proof.Machine.execAddi ra rb imm17 s
  | .addi2 ra rb op2 => Sys2Proof.Machine.execAddi2 ra rb op2 s
  | .ori ra rb imm17 => Sys2Proof.Machine.execOri ra rb imm17 s
  | .ori2 ra rb op2 => Sys2Proof.Machine.execOri2 ra rb op2 s
  | .andi ra rb imm17 => Sys2Proof.Machine.execAndi ra rb imm17 s
  | .andi2 ra rb op2 => Sys2Proof.Machine.execAndi2 ra rb op2 s
  | .movi ra imm17 => Sys2Proof.Machine.execMovi ra imm17 s
  | .movi2 ra op2 => Sys2Proof.Machine.execMovi2 ra op2 s
  | .add ra rb rc => Sys2Proof.Machine.execAdd ra rb rc s
  | .sub ra rb rc => Sys2Proof.Machine.execSub ra rb rc s
  | .not ra rc => Sys2Proof.Machine.execNot ra rc s
  | .neg ra rc => Sys2Proof.Machine.execNeg ra rc s
  | .or ra rb rc => Sys2Proof.Machine.execOr ra rb rc s
  | .and ra rb rc => Sys2Proof.Machine.execAnd ra rb rc s
  | .xor ra rb rc => Sys2Proof.Machine.execXor ra rb rc s
  | .asr ra rb shamt => Sys2Proof.Machine.execAsr ra rb shamt s
  | .asrR ra rb rc => Sys2Proof.Machine.execAsrR ra rb rc s
  | .lsr ra rb shamt => Sys2Proof.Machine.execLsr ra rb shamt s
  | .lsrR ra rb rc => Sys2Proof.Machine.execLsrR ra rb rc s
  | .shl ra rb shamt => Sys2Proof.Machine.execShl ra rb shamt s
  | .shlR ra rb rc => Sys2Proof.Machine.execShlR ra rb rc s
  | .ror ra rb shamt => Sys2Proof.Machine.execRor ra rb shamt s
  | .rorR ra rb rc => Sys2Proof.Machine.execRorR ra rb rc s
  | .br rb rc cond => Sys2Proof.Machine.execBr rb rc cond s
  | .brl ra rb rc cond => Sys2Proof.Machine.execBrl ra rb rc cond s
  | .j imm22 => Sys2Proof.Machine.execJ imm22 s
  | .jl ra imm22 => Sys2Proof.Machine.execJl ra imm22 s
  | .ld ra rb imm17 => Sys2Proof.Machine.execLd ra rb imm17 s
  | .ldr ra imm22 => Sys2Proof.Machine.execLdr ra imm22 s
  | .st ra rb imm17 => Sys2Proof.Machine.execSt ra rb imm17 s
  | .str ra imm22 => Sys2Proof.Machine.execStr ra imm22 s
  | .lea ra imm22 => Sys2Proof.Machine.execLea ra imm22 s
  | .ien => Sys2Proof.Machine.execIen s
  | .ids => Sys2Proof.Machine.execIds s
  | .rfi => Sys2Proof.Machine.execRfi s

end Sys2Proof.Machine
end

