-- ==== Sys2Proof/Machine/Step.lean ====
section
/-! DEFINITION. One step of the machine: R42, C0 to C7. -/

namespace Sys2Proof.Machine

/-- C2 to C7: fetch, decode, execute, and the delayed branch. -/
def runInstr (s : State) : Host.Outcome State Fault Refusal :=
  match fetch s with
  | .misaligned => .refused .misalignedTarget
  | .stuck => .fault .stuckFetch
  | .word w =>
    match decodeWord s.config w with
    | .reserved r => .refused (reservedRefusal r)
    | .instr i => retireOutcome (exec i (issue w s))

/-- One step (R42): RST, an interrupt entry, or one instruction. -/
def step (s : State) : Host.Outcome State Fault Refusal :=
  match boundary s with
  | .reset => .next (resetEvent s.sampled)
  | .entry => .next (interruptEntry s.sampled)
  | .refuse => .refused .irqInDelaySlot
  | .run => runInstr s.sampled

/-- The instruction word `w` of `nbits` bits stored where `step` fetches next, and the coming boundary quiet
(log 25): a program is loaded into program memory from outside before RST falls (R303). -/
def State.withFetchWord (s : State) (nbits w : Nat) : State := placeAtPc (BitVec.ofNat 32 (w % 2 ^ nbits)) s

end Sys2Proof.Machine
end

