-- ==== Sys2Proof/Machine/Assembly.lean ====
section
/-! DEFINITION. The assembler syntax of 30_encoding section 6 (R111 to R115, decision D30): lines, the assembler from a
line to an instruction, the line of an instruction, and the text of both. The machine uses none of it. -/

namespace Sys2Proof

/-- The 27 mnemonics (R112). -/
inductive Mnemonic where
  | addi | ori | andi | movi
  | add | sub | not | neg | or | and | xor
  | asr | lsr | shl | ror
  | br | brl | j | jl
  | ld | ldr | st | str | lea
  | ien | ids | rfi
  deriving DecidableEq, Repr

/-- An operand of an assembly line (R111, R112). -/
inductive Operand where
  /-- `r<index>` -/
  | reg (r : Reg)
  /-- `#v` -/
  | imm (v : Int)
  /-- `shift(#imm10, #shamt)` -/
  | shifted (mode : ShiftMode) (imm10 shamt : Int)
  /-- `#v(r<index>)` -/
  | based (v : Int) (rb : Reg)
  deriving DecidableEq, Repr

/-- A mnemonic, the condition suffix of a BR or BRL (R113), and the operands. -/
structure Line where
  mnemonic : Mnemonic
  suffix : Option Cond
  operands : List Operand
  deriving DecidableEq, Repr

/-! ## From a line to an instruction -/

/-- "any value `v` with `-2^(n-1) <= v <= 2^n - 1` for an n-bit field", stored modulo 2^n (R114). -/
def immediateField (n : Nat) (v : Int) : Option (BitVec n) :=
  if -2 ^ (n - 1) ≤ v ∧ v ≤ 2 ^ n - 1 then some (BitVec.ofInt n v) else none

/-- The operand `shift(imm10, shamt)` (R112, R114). -/
def assembleType2 (mode : ShiftMode) (imm10 shamt : Int) : Option Type2 :=
  match immediateField 10 imm10, immediateField 5 shamt with
  | some i, some n => some { mode := mode, imm10 := i, shamt := n }
  | _, _ => none

/-- ADDI, ORI, ANDI: the operand's kind picks the type-1 or the type-2 opcode (R112). -/
def assembleImmediate (one : Reg → Reg → BitVec 17 → Instr) (two : Reg → Reg → Type2 → Instr) : List Operand → Option Instr
  | [.reg ra, .reg rb, .imm v] => (immediateField 17 v).map (one ra rb)
  | [.reg ra, .reg rb, .shifted m i n] => (assembleType2 m i n).map (two ra rb)
  | _ => none

def assembleMovi : List Operand → Option Instr
  | [.reg ra, .imm v] => (immediateField 17 v).map (.movi ra)
  | [.reg ra, .shifted m i n] => (assembleType2 m i n).map (.movi2 ra)
  | _ => none

def assembleThree (mk : Reg → Reg → Reg → Instr) : List Operand → Option Instr
  | [.reg ra, .reg rb, .reg rc] => some (mk ra rb rc)
  | _ => none

def assembleTwo (mk : Reg → Reg → Instr) : List Operand → Option Instr
  | [.reg ra, .reg rc] => some (mk ra rc)
  | _ => none

/-- ASR, LSR, SHL, ROR: "`#n` gives i = 0, a register gives i = 1" (R112). -/
def assembleShift (byShamt : Reg → Reg → BitVec 5 → Instr) (byReg : Reg → Reg → Reg → Instr) : List Operand → Option Instr
  | [.reg ra, .reg rb, .imm v] => (immediateField 5 v).map (byShamt ra rb)
  | [.reg ra, .reg rb, .reg rc] => some (byReg ra rb rc)
  | _ => none

/-- BR: rc is written for EQ, NE, GE, LT; for AL and NV it is left out and is 0 (R113). -/
def assembleBr (cond : Cond) : List Operand → Option Instr
  | [.reg rb] => if cond.readsRc then none else some (.br rb 0#5 cond)
  | [.reg rb, .reg rc] => if cond.readsRc then some (.br rb rc cond) else none
  | _ => none

/-- BRL, as BR with the link register first (R112, R113). -/
def assembleBrl (cond : Cond) : List Operand → Option Instr
  | [.reg ra, .reg rb] => if cond.readsRc then none else some (.brl ra rb 0#5 cond)
  | [.reg ra, .reg rb, .reg rc] => if cond.readsRc then some (.brl ra rb rc cond) else none
  | _ => none

/-- LD, ST: without a base register rb is 31, with one it is 0 to 30 (R112). -/
def assembleMem (mk : Reg → Reg → BitVec 17 → Instr) : List Operand → Option Instr
  | [.reg ra, .imm v] => (immediateField 17 v).map (mk ra 31#5)
  | [.reg ra, .based v rb] => if rb = 31#5 then none else (immediateField 17 v).map (mk ra rb)
  | _ => none

def assembleJ : List Operand → Option Instr
  | [.imm v] => (immediateField 22 v).map .j
  | _ => none

/-- JL, LDR, STR, LEA. -/
def assembleRelative (mk : Reg → BitVec 22 → Instr) : List Operand → Option Instr
  | [.reg ra, .imm v] => (immediateField 22 v).map (mk ra)
  | _ => none

def assembleBare (i : Instr) : List Operand → Option Instr
  | [] => some i
  | _ => none

/-- The conditions that R113 gives a suffix; no suffix is AL. -/
def suffixCond : Option Cond → Option Cond
  | none => some .al
  | some .reserved6 | some .reserved7 => none
  | some .nv => some .nv
  | some .al => some .al
  | some .eq => some .eq
  | some .ne => some .ne
  | some .ge => some .ge
  | some .lt => some .lt

/-- A line without a suffix, for every mnemonic but BR and BRL. -/
def assemblePlain (m : Mnemonic) (ops : List Operand) : Option Instr :=
  match m with
  | .addi => assembleImmediate .addi .addi2 ops
  | .ori => assembleImmediate .ori .ori2 ops
  | .andi => assembleImmediate .andi .andi2 ops
  | .movi => assembleMovi ops
  | .add => assembleThree .add ops
  | .sub => assembleThree .sub ops
  | .not => assembleTwo .not ops
  | .neg => assembleTwo .neg ops
  | .or => assembleThree .or ops
  | .and => assembleThree .and ops
  | .xor => assembleThree .xor ops
  | .asr => assembleShift .asr .asrR ops
  | .lsr => assembleShift .lsr .lsrR ops
  | .shl => assembleShift .shl .shlR ops
  | .ror => assembleShift .ror .rorR ops
  | .br | .brl => none
  | .j => assembleJ ops
  | .jl => assembleRelative .jl ops
  | .ld => assembleMem .ld ops
  | .ldr => assembleRelative .ldr ops
  | .st => assembleMem .st ops
  | .str => assembleRelative .str ops
  | .lea => assembleRelative .lea ops
  | .ien => assembleBare .ien ops
  | .ids => assembleBare .ids ops
  | .rfi => assembleBare .rfi ops

/-- The assembler (R112, R113). -/
def assemble (l : Line) : Option Instr :=
  match l.mnemonic, l.suffix with
  | .br, s => (suffixCond s).bind fun cond => assembleBr cond l.operands
  | .brl, s => (suffixCond s).bind fun cond => assembleBrl cond l.operands
  | m, none => assemblePlain m l.operands
  | _, some _ => none

/-! ## From an instruction to its line -/

def line (m : Mnemonic) (ops : List Operand) : Line := { mnemonic := m, suffix := none, operands := ops }

/-- A field written as its signed value (R111: a negative immediate is `#-4`). -/
def immOperand {n : Nat} (v : BitVec n) : Operand := .imm v.toInt

def type2Operand (t : Type2) : Operand := .shifted t.mode t.imm10.toInt t.shamt.toNat

def shamtOperand (n : BitVec 5) : Operand := .imm n.toNat

/-- AL is the default and is written without a suffix (R113). -/
def condSuffix : Cond → Option Cond
  | .al => none
  | c => some c

/-- The tested register, written for EQ, NE, GE, LT only (R113). -/
def rcOperands (cond : Cond) (rc : Reg) : List Operand := if cond.readsRc then [.reg rc] else []

/-- The address operand of LD and ST (R112). -/
def addressOperand (rb : Reg) (imm17 : BitVec 17) : Operand := if rb = 31#5 then .imm imm17.toInt else .based imm17.toInt rb

/-- The line of an instruction (R112). -/
def Instr.line : Instr → Line
  | .addi ra rb v => Sys2Proof.line .addi [.reg ra, .reg rb, immOperand v]
  | .addi2 ra rb t => Sys2Proof.line .addi [.reg ra, .reg rb, type2Operand t]
  | .ori ra rb v => Sys2Proof.line .ori [.reg ra, .reg rb, immOperand v]
  | .ori2 ra rb t => Sys2Proof.line .ori [.reg ra, .reg rb, type2Operand t]
  | .andi ra rb v => Sys2Proof.line .andi [.reg ra, .reg rb, immOperand v]
  | .andi2 ra rb t => Sys2Proof.line .andi [.reg ra, .reg rb, type2Operand t]
  | .movi ra v => Sys2Proof.line .movi [.reg ra, immOperand v]
  | .movi2 ra t => Sys2Proof.line .movi [.reg ra, type2Operand t]
  | .add ra rb rc => Sys2Proof.line .add [.reg ra, .reg rb, .reg rc]
  | .sub ra rb rc => Sys2Proof.line .sub [.reg ra, .reg rb, .reg rc]
  | .not ra rc => Sys2Proof.line .not [.reg ra, .reg rc]
  | .neg ra rc => Sys2Proof.line .neg [.reg ra, .reg rc]
  | .or ra rb rc => Sys2Proof.line .or [.reg ra, .reg rb, .reg rc]
  | .and ra rb rc => Sys2Proof.line .and [.reg ra, .reg rb, .reg rc]
  | .xor ra rb rc => Sys2Proof.line .xor [.reg ra, .reg rb, .reg rc]
  | .asr ra rb n => Sys2Proof.line .asr [.reg ra, .reg rb, shamtOperand n]
  | .asrR ra rb rc => Sys2Proof.line .asr [.reg ra, .reg rb, .reg rc]
  | .lsr ra rb n => Sys2Proof.line .lsr [.reg ra, .reg rb, shamtOperand n]
  | .lsrR ra rb rc => Sys2Proof.line .lsr [.reg ra, .reg rb, .reg rc]
  | .shl ra rb n => Sys2Proof.line .shl [.reg ra, .reg rb, shamtOperand n]
  | .shlR ra rb rc => Sys2Proof.line .shl [.reg ra, .reg rb, .reg rc]
  | .ror ra rb n => Sys2Proof.line .ror [.reg ra, .reg rb, shamtOperand n]
  | .rorR ra rb rc => Sys2Proof.line .ror [.reg ra, .reg rb, .reg rc]
  | .br rb rc cond => { mnemonic := .br, suffix := condSuffix cond, operands := .reg rb :: rcOperands cond rc }
  | .brl ra rb rc cond => { mnemonic := .brl, suffix := condSuffix cond, operands := .reg ra :: .reg rb :: rcOperands cond rc }
  | .j v => Sys2Proof.line .j [immOperand v]
  | .jl ra v => Sys2Proof.line .jl [.reg ra, immOperand v]
  | .ld ra rb v => Sys2Proof.line .ld [.reg ra, addressOperand rb v]
  | .ldr ra v => Sys2Proof.line .ldr [.reg ra, immOperand v]
  | .st ra rb v => Sys2Proof.line .st [.reg ra, addressOperand rb v]
  | .str ra v => Sys2Proof.line .str [.reg ra, immOperand v]
  | .lea ra v => Sys2Proof.line .lea [.reg ra, immOperand v]
  | .ien => Sys2Proof.line .ien []
  | .ids => Sys2Proof.line .ids []
  | .rfi => Sys2Proof.line .rfi []

/-! ## Text -/

/-- The mnemonics and their spellings (R112). -/
def mnemonicNames : List (Mnemonic × String) :=
  [(.addi, "ADDI"), (.ori, "ORI"), (.andi, "ANDI"), (.movi, "MOVI"), (.add, "ADD"), (.sub, "SUB"), (.not, "NOT"), (.neg, "NEG"),
   (.or, "OR"), (.and, "AND"), (.xor, "XOR"), (.asr, "ASR"), (.lsr, "LSR"), (.shl, "SHL"), (.ror, "ROR")] ++
  [(.br, "BR"), (.brl, "BRL"), (.j, "J"), (.jl, "JL"), (.ld, "LD"), (.ldr, "LDR"), (.st, "ST"), (.str, "STR"), (.lea, "LEA"),
   (.ien, "IEN"), (.ids, "IDS"), (.rfi, "RFI")]

/-- The condition suffixes; NZ is an accepted spelling of NE (R113). -/
def suffixNames : List (Cond × String) :=
  [(.nv, "NV"), (.al, "AL"), (.eq, "EQ"), (.ne, "NE"), (.ge, "GE"), (.lt, "LT"), (.ne, "NZ")]

/-- The shift names of a type-2 operand (R112). -/
def shiftNames : List (ShiftMode × String) := [(.shl, "SHL"), (.lsr, "LSR"), (.asr, "ASR"), (.ror, "ROR")]

/-- The first entry with this name, in any case of letters (D30: mnemonics are case-insensitive). -/
def lookupName {α : Type} (table : List (α × String)) (name : List Char) : Option α :=
  (table.find? fun e => e.2.toList == name.map Char.toUpper).map Prod.fst

/-- A digit of base 16 or less. -/
def digitValue (c : Char) : Option Nat :=
  if '0' ≤ c ∧ c ≤ '9' then some (c.toNat - 48)
  else if 'a' ≤ c ∧ c ≤ 'f' then some (c.toNat - 87)
  else if 'A' ≤ c ∧ c ≤ 'F' then some (c.toNat - 55)
  else none

/-- The digits' number, `acc` being what stands before them. -/
def readDigits (base acc : Nat) : List Char → Option Nat
  | [] => some acc
  | c :: cs =>
    match digitValue c with
    | some d => if d < base then readDigits base (acc * base + d) cs else none
    | none => none

/-- A decimal number or a `0x` hexadecimal number (R111). -/
def readNat : List Char → Option Nat
  | [] => none
  | '0' :: 'x' :: d :: ds => readDigits 16 0 (d :: ds)
  | d :: ds => readDigits 10 0 (d :: ds)

/-- A number with or without a minus sign (R111). -/
def readInt : List Char → Option Int
  | '-' :: cs => (readNat cs).map fun n => -(n : Int)
  | cs => (readNat cs).map fun n => (n : Int)

/-- `r0` to `r31` (R111). -/
def readReg : List Char → Option Reg
  | 'r' :: d :: ds => (readDigits 10 0 (d :: ds)).bind fun n => if n < 32 then some (BitVec.ofNat 5 n) else none
  | _ => none

/-- The characters before the first `stop` and those after it, none where it does not occur. -/
def cutAt (stop : Char) : List Char → List Char × Option (List Char)
  | [] => ([], none)
  | c :: cs => if c = stop then ([], some cs) else (c :: (cutAt stop cs).1, (cutAt stop cs).2)

/-- What stands before a closing parenthesis that ends the operand. -/
def beforeParen (cs : List Char) : Option (List Char) :=
  match cutAt ')' cs with
  | (inner, some []) => some inner
  | _ => none

/-- `#imm10, #shamt` inside the parentheses of a type-2 operand (R112). -/
def readShifted (mode : ShiftMode) (cs : List Char) : Option Operand :=
  match cutAt ',' cs with
  | ('#' :: a, some (' ' :: '#' :: b)) =>
    match readInt a, readInt b with
    | some i, some n => some (.shifted mode i n)
    | _, _ => none
  | _ => none

/-- One operand (R111, R112). -/
def readOperand (cs : List Char) : Option Operand :=
  match cs, cutAt '(' cs with
  | '#' :: v, (_, none) => (readInt v).map .imm
  | '#' :: _, (head, some rest) =>
    match readInt (head.drop 1), (beforeParen rest).bind readReg with
    | some v, some rb => some (.based v rb)
    | _, _ => none
  | _, (head, some rest) =>
    match lookupName shiftNames head, beforeParen rest with
    | some mode, some inner => readShifted mode inner
    | _, _ => none
  | _, (_, none) => (readReg cs).map .reg

/-- The operands' texts: cut at every `, ` outside parentheses; `depth` counts the open ones, `acc` holds the current
text backwards. -/
def splitOperands (depth : Nat) (acc : List Char) : List Char → List (List Char)
  | [] => [acc.reverse]
  | c :: cs =>
    if c = '(' then splitOperands (depth + 1) (c :: acc) cs
    else if c = ')' then splitOperands (depth - 1) (c :: acc) cs
    else if c = ',' ∧ depth = 0 then acc.reverse :: splitOperands depth [] cs
    else splitOperands depth (c :: acc) cs

/-- The blank after an operand's comma. -/
def dropBlank : List Char → Option (List Char)
  | ' ' :: cs => some cs
  | _ => none

/-- Every operand of a line, the first directly, the others after a blank (R111). -/
def readOperands (cs : List Char) : Option (List Operand) :=
  match splitOperands 0 [] cs with
  | [] => some []
  | first :: rest => ((some first) :: rest.map dropBlank).mapM fun o => o.bind readOperand

/-- A mnemonic with or without a condition suffix; a suffix is two letters after BR or BRL (R113). -/
def readMnemonic (cs : List Char) : Option (Mnemonic × Option Cond) :=
  match lookupName mnemonicNames cs with
  | some m => some (m, none)
  | none =>
    match lookupName mnemonicNames (cs.take (cs.length - 2)), lookupName suffixNames (cs.drop (cs.length - 2)) with
    | some .br, some cond => some (.br, some cond)
    | some .brl, some cond => some (.brl, some cond)
    | _, _ => none

/-- The line that a text writes (R111). -/
def readLine (text : List Char) : Option Line :=
  match cutAt ' ' text with
  | (head, none) => (readMnemonic head).map fun m => { mnemonic := m.1, suffix := m.2, operands := [] }
  | (head, some rest) =>
    match readMnemonic head, readOperands rest with
    | some m, some ops => some { mnemonic := m.1, suffix := m.2, operands := ops }
    | _, _ => none

/-- The instruction that a text writes, none where the assembler refuses it. -/
def assembleText (text : List Char) : Option Instr := (readLine text).bind assemble

/-- The name a table gives a value. -/
def nameOf {α : Type} [DecidableEq α] (table : List (α × String)) (a : α) : String :=
  match table.find? fun e => e.1 = a with
  | some e => e.2
  | none => ""

/-- An operand's text (R111). -/
def Operand.text : Operand → String
  | .reg r => "r" ++ toString r.toNat
  | .imm v => "#" ++ toString v
  | .shifted m i n => nameOf shiftNames m ++ "(#" ++ toString i ++ ", #" ++ toString n ++ ")"
  | .based v rb => "#" ++ toString v ++ "(r" ++ toString rb.toNat ++ ")"

/-- The text of a line (R111, R113). -/
def Line.text (l : Line) : String :=
  nameOf mnemonicNames l.mnemonic ++ (match l.suffix with | some c => nameOf suffixNames c | none => "") ++
    (if l.operands.isEmpty then "" else " ") ++ ", ".intercalate (l.operands.map Operand.text)

end Sys2Proof
end

