-- ==== Sys2Proof/Safety.lean ====
section
/-! DEFINITION. The words in which statements speak of the machine: the invariant, what it means that a state
is unchanged but for one thing, and the tables of which instruction reads and writes what. -/

namespace Sys2Proof.Machine

/-! ## The invariant of a machine between two steps -/

/-- Under the decided MISALIGNED_PC, and under `clearBits`, every instruction address is a multiple of 4 (R35). -/
def AlignedUnlessKept (c : Config) (a : Word) : Prop := c.misalignedPc = .keepBits ∨ isAligned a = true

/-- Between two steps: PC and a pending target are multiples of 4 (R35), no delay slot is half done (R42), and
both memories are in canonical form. -/
structure State.Inv (s : State) : Prop where
  pc_aligned : AlignedUnlessKept s.config s.pc
  bt_aligned : ∀ t, s.bt = some t → AlignedUnlessKept s.config t
  no_slot : s.slot = none
  pmem_wf : s.pmem.wf = true
  dmem_wf : s.dmem.wf = true

/-- A step that goes on. -/
def Continues (s : State) : Prop := ∃ t, step s = .next t

/-- Everything but the general registers is the same; memory is compared by its words, which hold every
byte of it (R63). -/
structure SameButRegs (s t : State) : Prop where
  pc : t.pc = s.pc
  ir : t.ir = s.ir
  ie : t.ie = s.ie
  bt : t.bt = s.bt
  slot : t.slot = s.slot
  data : ∀ k, t.dataWord k = s.dataWord k
  prog : ∀ k, t.progWord k = s.progWord k
  inputs : t.inputs = s.inputs
  outputs : t.outputs = s.outputs
  draws : t.draws = s.draws
  config : t.config = s.config

/-- The frame of an instruction that writes `x[ra]` and stores nothing. -/
structure OnlyRegChanged (ra : Reg) (s t : State) : Prop where
  others : ∀ r, r ≠ ra → t.reg r = s.reg r
  rest : SameButRegs s t

/-- The instruction completes with `x[ra] = v` and changes nothing else. -/
def Writes (i : Instr) (s : State) (ra : Reg) (v : Word) : Prop :=
  ∃ t, exec i s = .next t ∧ t.reg ra = v ∧ OnlyRegChanged ra s t

/-- The frame of an instruction that stores the word at byte address `ea`, low two bits dropped: every other word,
and so every byte outside the four stored ones, reads as before (R63, R66). -/
structure OnlyWordChanged (ea : Word) (s t : State) : Prop where
  regs : ∀ r, t.reg r = s.reg r
  pc : t.pc = s.pc
  ir : t.ir = s.ir
  ie : t.ie = s.ie
  bt : t.bt = s.bt
  slot : t.slot = s.slot
  data : ∀ k, k ≠ wordIndex ea → t.dataWord k = s.dataWord k
  prog : ∀ k, t.progWord k = s.progWord k
  inputs : t.inputs = s.inputs
  outputs : t.outputs = s.outputs
  draws : t.draws = s.draws
  config : t.config = s.config

/-- The access of `ea` is not turned away by MISALIGNED_DATA and reaches plain implemented memory. -/
structure PlainData (s : State) (ea : Word) : Prop where
  accepted : s.config.misalignedData = .refuse → isAligned ea = true
  present : implemented s.config.dmemRange (wordIndex ea) = true
  plain : implemented s.config.deviceRange (wordIndex ea) = false

/-! ## Boundaries and fetches -/

/-- The coming boundary brings neither RST nor a request that IE lets through (R263). -/
def Quiet (s : State) : Prop := s.pins.rst = false ∧ (s.ie = false ∨ s.pins.ireq = false)

/-- PC can be fetched from and holds the word `w` (R61, R65, R70). -/
structure Fetches (s : State) (w : Word) : Prop where
  aligned : AlignedUnlessKept s.config s.pc
  present : implemented s.config.pmemRange (wordIndex s.pc) = true
  word : s.pmem.word (wordIndex s.pc) = w

/-- The word at PC is the instruction `i`. -/
def FetchesInstr (s : State) (i : Instr) : Prop := ∃ w, Fetches s w ∧ decodeWord s.config w = .instr i

/-- Every switch of the configuration has the value the spec decides; ranges, vector and layout are free. -/
structure DecidedSwitches (c : Config) : Prop where
  data : c.misalignedData = .ignoreBits
  pc : c.misalignedPc = .refuse
  unused : c.unusedBits = .ignore
  cond : c.reservedCond = .refuse
  overlap : c.brlOverlap = .refuse
  irq : c.irqInDelaySlot = .refuse

/-! ## Which instruction reads and writes what (R34, R46, R47) -/

/-- The register an instruction writes (R47). -/
def writtenReg : Instr → Option Reg
  | .addi ra _ _ | .addi2 ra _ _ | .ori ra _ _ | .ori2 ra _ _ | .andi ra _ _ | .andi2 ra _ _ | .movi ra _ | .movi2 ra _ => some ra
  | .add ra _ _ | .sub ra _ _ | .not ra _ | .neg ra _ | .or ra _ _ | .and ra _ _ | .xor ra _ _ => some ra
  | .asr ra _ _ | .asrR ra _ _ | .lsr ra _ _ | .lsrR ra _ _ | .shl ra _ _ | .shlR ra _ _ | .ror ra _ _ | .rorR ra _ _ => some ra
  | .brl ra _ _ _ | .jl ra _ | .ld ra _ _ | .ldr ra _ | .lea ra _ => some ra
  | .br _ _ _ | .j _ | .st _ _ _ | .str _ _ | .ien | .ids | .rfi => none

/-- The registers a conditional branch reads (R47): the target when it is taken, the tested register when the
condition tests one. -/
def branchReads (s : State) (rb rc : Reg) (cond : Cond) : List Reg :=
  (if taken s.config cond (s.reg rc) = some true then [rb] else []) ++ (if testsRc cond then [rc] else [])

/-- The registers an instruction reads (R47). -/
def readRegs (s : State) : Instr → List Reg
  | .addi _ rb _ | .addi2 _ rb _ | .ori _ rb _ | .ori2 _ rb _ | .andi _ rb _ | .andi2 _ rb _ => [rb]
  | .movi _ _ | .movi2 _ _ => []
  | .add _ rb rc | .sub _ rb rc | .or _ rb rc | .and _ rb rc | .xor _ rb rc => [rb, rc]
  | .not _ rc | .neg _ rc => [rc]
  | .asr _ rb _ | .lsr _ rb _ | .shl _ rb _ | .ror _ rb _ => [rb]
  | .asrR _ rb rc | .lsrR _ rb rc | .shlR _ rb rc | .rorR _ rb rc => [rb, rc]
  | .br rb rc cond => branchReads s rb rc cond
  | .brl _ rb rc cond => branchReads s rb rc cond
  | .j _ | .jl _ _ | .ldr _ _ | .lea _ _ | .ien | .ids => []
  | .ld _ rb _ => if rb = absoluteBase then [] else [rb]
  | .st ra rb _ => if rb = absoluteBase then [ra] else [ra, rb]
  | .str ra _ => [ra]
  | .rfi => [ipc]

/-- The address a store writes to, by the function its meaning uses; none for an instruction that stores nothing. -/
def storeAddress (s : State) : Instr → Option Word
  | .st _ rb imm17 => some (addressM rb imm17 s)
  | .str _ imm22 => some (addressPc imm22 s)
  | .addi _ _ _ | .addi2 _ _ _ | .ori _ _ _ | .ori2 _ _ _ | .andi _ _ _ | .andi2 _ _ _ | .movi _ _ | .movi2 _ _ => none
  | .add _ _ _ | .sub _ _ _ | .not _ _ | .neg _ _ | .or _ _ _ | .and _ _ _ | .xor _ _ _ => none
  | .asr _ _ _ | .asrR _ _ _ | .lsr _ _ _ | .lsrR _ _ _ | .shl _ _ _ | .shlR _ _ _ | .ror _ _ _ | .rorR _ _ _ => none
  | .br _ _ _ | .brl _ _ _ _ | .j _ | .jl _ _ | .ld _ _ _ | .ldr _ _ | .lea _ _ | .ien | .ids | .rfi => none

/-- The address a load reads from; none for an instruction that loads nothing. -/
def loadAddress (s : State) : Instr → Option Word
  | .ld _ rb imm17 => some (addressM rb imm17 s)
  | .ldr _ imm22 => some (addressPc imm22 s)
  | .addi _ _ _ | .addi2 _ _ _ | .ori _ _ _ | .ori2 _ _ _ | .andi _ _ _ | .andi2 _ _ _ | .movi _ _ | .movi2 _ _ => none
  | .add _ _ _ | .sub _ _ _ | .not _ _ | .neg _ _ | .or _ _ _ | .and _ _ _ | .xor _ _ _ => none
  | .asr _ _ _ | .asrR _ _ _ | .lsr _ _ _ | .lsrR _ _ _ | .shl _ _ _ | .shlR _ _ _ | .ror _ _ _ | .rorR _ _ _ => none
  | .br _ _ _ | .brl _ _ _ _ | .j _ | .jl _ _ | .st _ _ _ | .str _ _ | .lea _ _ | .ien | .ids | .rfi => none

/-- The address to which an instruction transfers control from this state; none where it transfers nothing
(R34, R190, R201: J, JL, RFI, and a BR or BRL whose condition holds). -/
def transferTarget (s : State) : Instr → Option Word
  | .j imm22 | .jl _ imm22 => some (addressPc imm22 s)
  | .br rb rc cond => if taken s.config cond (s.reg rc) = some true then some (s.reg rb) else none
  | .brl _ rb rc cond => if taken s.config cond (s.reg rc) = some true then some (s.reg rb) else none
  | .rfi => some (s.reg ipc)
  | .addi _ _ _ | .addi2 _ _ _ | .ori _ _ _ | .ori2 _ _ _ | .andi _ _ _ | .andi2 _ _ _ | .movi _ _ | .movi2 _ _ => none
  | .add _ _ _ | .sub _ _ _ | .not _ _ | .neg _ _ | .or _ _ _ | .and _ _ _ | .xor _ _ _ => none
  | .asr _ _ _ | .asrR _ _ _ | .lsr _ _ _ | .lsrR _ _ _ | .shl _ _ _ | .shlR _ _ _ | .ror _ _ _ | .rorR _ _ _ => none
  | .ld _ _ _ | .ldr _ _ | .st _ _ _ | .str _ _ | .lea _ _ | .ien | .ids => none

/-- The BRLs that R200 refuses. -/
def overlappingBrl : Instr → Bool
  | .brl ra rb rc cond => linkOverlaps ra rb rc cond
  | _ => false

/-- A BR or BRL with a condition that R108 reserves. -/
def hasReservedCond : Instr → Bool
  | .br _ _ cond | .brl _ _ _ cond => cond == .reserved6 || cond == .reserved7
  | _ => false

/-- J, JL, BR, BRL: the instructions with a delay slot (R191). -/
def hasDelaySlot : Instr → Bool
  | .j _ | .jl _ _ | .br _ _ _ | .brl _ _ _ _ => true
  | _ => false

/-- J, JL, BRL, LDR, STR, LEA: the instructions that read currentPC (R34). -/
def readsCpc : Instr → Bool
  | .j _ | .jl _ _ | .brl _ _ _ _ | .ldr _ _ | .str _ _ | .lea _ _ => true
  | _ => false

/-- Two outcomes stop alike, or both go on and the two next states are related. -/
def Alike (R : State → State → Prop) : (o o' : Host.Outcome State Fault Refusal) → Prop
  | .next t, .next t' => R t t'
  | .fault f, .fault f' => f = f'
  | .refused r, .refused r' => r = r'
  | _, _ => False

end Sys2Proof.Machine
end

