-- ==== Sys2Proof/Certificates/Slice0/Obligations.lean ====
section
/-! DEFINITION. The statements about KRP, for the provers. Each says which rule of spec/ it formalises. Words are
written as the rules write them, `place v k` being `v << k`; sums are taken over the integers and reduced modulo
2^32 by `wrap`, as R16 says. -/

namespace Sys2Proof.Machine

/-- The integer reduced modulo 2^32 (R16). -/
def wrap (z : Int) : Word := BitVec.ofInt 32 z

/-- A three-register ALU instruction: its word is `base | ra<<22 | rb<<17 | rc<<12` and it completes with the result in ra. -/
def BinaryRule (base : Word) (mk : Reg → Reg → Reg → Instr) (f : Word → Word → Word) : Prop :=
  ∀ (c : Config) (ra rb rc : Reg) (s : State),
    decodeWord c (base ||| place ra 22 ||| place rb 17 ||| place rc 12) = .instr (mk ra rb rc) ∧
    Writes (mk ra rb rc) s ra (f (s.reg rb) (s.reg rc))

/-- A two-register ALU instruction: its word is `base | ra<<22 | rc<<12`. -/
def UnaryRule (base : Word) (mk : Reg → Reg → Instr) (f : Word → Word) : Prop :=
  ∀ (c : Config) (ra rc : Reg) (s : State),
    decodeWord c (base ||| place ra 22 ||| place rc 12) = .instr (mk ra rc) ∧ Writes (mk ra rc) s ra (f (s.reg rc))

/-- A type-1 immediate instruction: its word is `base | ra<<22 | rb<<17 | imm17`. -/
def Type1Rule (base : Word) (mk : Reg → Reg → BitVec 17 → Instr) (f : Word → BitVec 17 → Word) : Prop :=
  ∀ (c : Config) (ra rb : Reg) (imm17 : BitVec 17) (s : State),
    decodeWord c (base ||| place ra 22 ||| place rb 17 ||| place imm17 0) = .instr (mk ra rb imm17) ∧
    Writes (mk ra rb imm17) s ra (f (s.reg rb) imm17)

/-- `Op2_type2` of R130, by the 2-bit mode field. -/
def shiftedImmediate (mode : BitVec 2) (imm10 : BitVec 10) (shamt : BitVec 5) : Word :=
  if mode = 0b00#2 then shl32 (imm10.signExtend 32) shamt
  else if mode = 0b01#2 then lsr32 (imm10.signExtend 32) shamt
  else if mode = 0b10#2 then asr32 (imm10.signExtend 32) shamt
  else ror32 (imm10.signExtend 32) shamt

/-- A type-2 immediate instruction, in the decided layout: its word is
`base | ra<<22 | rb<<17 | mode<<15 | imm10<<5 | shamt`. -/
def Type2Rule (base : Word) (mk : Reg → Reg → Type2 → Instr) (f : Word → Word → Word) : Prop :=
  ∀ (c : Config) (ra rb : Reg) (mode : BitVec 2) (imm10 : BitVec 10) (shamt : BitVec 5),
    c.type2Layout = .modeImmShamt →
    ∃ t : Type2,
      decodeWord c (base ||| place ra 22 ||| place rb 17 ||| place mode 15 ||| place imm10 5 ||| place shamt 0)
        = .instr (mk ra rb t) ∧
      ∀ s : State, Writes (mk ra rb t) s ra (f (s.reg rb) (shiftedImmediate mode imm10 shamt))

/-- A shift by an immediate and by a register amount (R96, R170): the words are `base | ra<<22 | rb<<17 | shamt` and
`base | 0x20 | ra<<22 | rb<<17 | rc<<12`; a register amount is the register's low five bits. -/
def ShiftRule (base : Word) (mkImm mkReg : Reg → Reg → BitVec 5 → Instr) (f : Word → BitVec 5 → Word) : Prop :=
  ∀ (c : Config) (ra rb rc shamt : Reg) (s : State),
    decodeWord c (base ||| place ra 22 ||| place rb 17 ||| place shamt 0) = .instr (mkImm ra rb shamt) ∧
    Writes (mkImm ra rb shamt) s ra (f (s.reg rb) shamt) ∧
    decodeWord c (base ||| 0x20#32 ||| place ra 22 ||| place rb 17 ||| place rc 12) = .instr (mkReg ra rb rc) ∧
    Writes (mkReg ra rb rc) s ra (f (s.reg rb) ((s.reg rc).extractLsb' 0 5))

/-- The address of LD and ST, over the integers (R221). -/
def baseAddress (rb : Reg) (imm17 : BitVec 17) (s : State) : Word :=
  if rb = 31#5 then imm17.signExtend 32 else wrap ((s.reg rb).toInt + imm17.toInt)

/-- `cpc + sext_32(imm22)`, over the integers; PC holds currentPC while the instruction executes (R32). -/
def relativeAddress (imm22 : BitVec 22) (s : State) : Word := wrap (s.pc.toInt + imm22.toInt)

/-- The instruction stores `v` in the word at `ea` and changes nothing else. -/
def Stores (i : Instr) (s : State) (ea v : Word) : Prop :=
  ∃ t, exec i s = .next t ∧ t.dmem.word (wordIndex ea) = v ∧ OnlyWordChanged ea s t

end Sys2Proof.Machine

open Sys2Proof Sys2Proof.Machine

/-! ## Encoding -/

/-- 30_encoding R90 to R106: no bit of an encoding is dropped, in any configuration. -/
def Obligations.DecodeOfEncodeIsTheInstruction : Prop :=
  ∀ (c : Config) (i : Instr), i.wellFormed c = true → decodeWord c (encode c i) = .instr i

/-- 30_encoding R97, R100: a decoded instruction is well formed, and its canonical word is the decoded word with
the unused bits zero. -/
def Obligations.DecodedWordIsCanonicalUpToUnusedBits : Prop :=
  ∀ (c : Config) (w : Word) (i : Instr), decodeWord c w = .instr i →
    i.wellFormed c = true ∧ encode c i = w &&& ~~~ unusedMask w ∧ (c.unusedBits = .refuse → encode c i = w)

/-- 30_encoding R97, whose treatment of unused bits is the spec's decision D8: the decoder does not look at them, with the
stricter alternative it turns away a word that has one set, and the encoder writes zeros. -/
def Obligations.UnusedBitsDoNotMatter : Prop :=
  (∀ (c : Config) (w w' : Word), c.unusedBits = .ignore → w' &&& ~~~ unusedMask w = w &&& ~~~ unusedMask w →
    decodeWord c w' = decodeWord c w) ∧
  (∀ (c : Config) (w : Word), c.unusedBits = .refuse → w &&& unusedMask w ≠ 0#32 → ∀ i, decodeWord c w ≠ .instr i) ∧
  (∀ (c : Config) (i : Instr), i.wellFormed c = true → encode c i &&& unusedMask (encode c i) = 0#32)

/-- 30_encoding R100, with the spec's decisions D9 and D10: exactly the words of opcode 28, and those of BR and BRL with
cond 6 or 7, are reserved. That such a cond is named also where UNUSED_BITS = refuse would turn the word away is the
model's own choice (log 35). -/
def Obligations.ReservedWordsAreExactlyOpcode28AndReservedConds : Prop :=
  ∀ (c : Config) (w : Word),
    (decodeWord c w = .reserved .opcode28 ↔ w.extractLsb' 27 5 = 28#5) ∧
    (decodeWord c w = .reserved .cond ↔
      c.reservedCond = .refuse ∧ (w.extractLsb' 27 5 = 19#5 ∨ w.extractLsb' 27 5 = 20#5) ∧
        (w.extractLsb' 0 3 = 6#3 ∨ w.extractLsb' 0 3 = 7#3)) ∧
    (c.unusedBits = .ignore → decodeWord c w ≠ .reserved .unusedBits)

/-- 95_test_vectors sections 1.1 and 2.7: one word of each format, and reserved words. -/
def Obligations.SpecWordsDecodeAsListed : Prop :=
  decodeWord Config.decided 0x00440002#32 = .instr (.addi 1#5 2#5 2#17) ∧
  decodeWord Config.decided 0x1A976604#32 = .instr (.ori2 10#5 11#5 ⟨.asr, 0x330#10, 4#5⟩) ∧
  decodeWord Config.decided 0x40443FFF#32 = .instr (.add 1#5 2#5 3#5) ∧
  decodeWord Config.decided 0x55807000#32 = .instr (.not 22#5 7#5) ∧
  decodeWord Config.decided 0x78443024#32 = .instr (.asrR 1#5 2#5 3#5) ∧
  decodeWord Config.decided 0x98086003#32 = .instr (.br 4#5 6#5 .ne) ∧
  decodeWord Config.decided 0xA10CB004#32 = .instr (.brl 4#5 6#5 11#5 .ge) ∧
  decodeWord Config.decided 0xA800000C#32 = .instr (.j 12#22) ∧
  decodeWord Config.decided 0xB87E1000#32 = .instr (.ld 1#5 31#5 0x1000#17) ∧
  decodeWord Config.decided 0xD0400028#32 = .instr (.str 1#5 40#22) ∧
  decodeWord Config.decided 0xFFFFFFFF#32 = .instr .rfi ∧
  decodeWord Config.decided 0xE7FFFFFF#32 = .reserved .opcode28

/-- 30_encoding R107, the spec's decision D9: a word with opcode 28 at PC stops the step under its own name. -/
def Obligations.Opcode28IsRefused : Prop :=
  ∀ (s : State) (w : Word), Quiet s → Fetches s w → w.extractLsb' 27 5 = 28#5 → step s = .refused .reservedOpcode

/-- 30_encoding R108, the spec's decision D10: the refusal of cond 6 and 7, and the named alternative `not-taken`, under which a BRL
still links. That the refusal names the cond also where UNUSED_BITS = refuse would turn the word away is the model's own
choice (log 35). -/
def Obligations.ReservedCondIsRefusedOrNeverTaken : Prop :=
  (∀ (s : State) (w : Word), s.config.reservedCond = .refuse → Quiet s → Fetches s w →
    (w.extractLsb' 27 5 = 19#5 ∨ w.extractLsb' 27 5 = 20#5) → (w.extractLsb' 0 3 = 6#3 ∨ w.extractLsb' 0 3 = 7#3) →
    step s = .refused .reservedCond) ∧
  (∀ (s : State) (ra rb rc : Reg) (cond : Cond), s.config.reservedCond = .notTaken → cond = .reserved6 ∨ cond = .reserved7 →
    exec (.br rb rc cond) s = .next s ∧ (ra ≠ rb → Writes (.brl ra rb rc cond) s ra s.pc))

/-! ## Operands -/

/-- 00_scope R11, which the spec derives from the source's "sign-extension to 32 bits": the three immediate widths, bit by
bit, and the ranges. -/
def Obligations.SignExtensionCopiesTheTopBit : Prop :=
  (∀ (v : BitVec 17) (k : Nat), k < 32 → (sext v).getLsbD k = if k < 17 then v.getLsbD k else v.getLsbD 16) ∧
  (∀ (v : BitVec 22) (k : Nat), k < 32 → (sext v).getLsbD k = if k < 22 then v.getLsbD k else v.getLsbD 21) ∧
  (∀ (v : BitVec 10) (k : Nat), k < 32 → (sext v).getLsbD k = if k < 10 then v.getLsbD k else v.getLsbD 9) ∧
  (∀ v : BitVec 17, -65536 ≤ (sext v).toInt ∧ (sext v).toInt ≤ 65535) ∧
  (∀ v : BitVec 22, -2097152 ≤ (sext v).toInt ∧ (sext v).toInt ≤ 2097151) ∧
  (∀ v : BitVec 10, -512 ≤ (sext v).toInt ∧ (sext v).toInt ≤ 511)

/-- 00_scope R12 (ASR and ROR by the spec's decision D12) and R13: the four shift functions, bit by bit; each type-2 mode is
one of them, by its code. -/
def Obligations.ShiftFunctionsBitByBit : Prop :=
  ∀ (v : Word) (n : BitVec 5),
    (∀ k, k < 32 →
      (shl32 v n).getLsbD k = (decide (n.toNat ≤ k) && v.getLsbD (k - n.toNat)) ∧
      (lsr32 v n).getLsbD k = (decide (k + n.toNat < 32) && v.getLsbD (k + n.toNat)) ∧
      (asr32 v n).getLsbD k = (if k + n.toNat < 32 then v.getLsbD (k + n.toNat) else v.getLsbD 31) ∧
      (ror32 v n).getLsbD k = v.getLsbD ((k + n.toNat) % 32)) ∧
    (n = 0#5 → shl32 v n = v ∧ lsr32 v n = v ∧ asr32 v n = v ∧ ror32 v n = v) ∧
    (∀ imm10 : BitVec 10,
      type2Value ⟨ShiftMode.ofCode 0b00#2, imm10, n⟩ = shl32 (sext imm10) n ∧ type2Value ⟨ShiftMode.ofCode 0b01#2, imm10, n⟩ = lsr32 (sext imm10) n ∧
      type2Value ⟨ShiftMode.ofCode 0b10#2, imm10, n⟩ = asr32 (sext imm10) n ∧ type2Value ⟨ShiftMode.ofCode 0b11#2, imm10, n⟩ = ror32 (sext imm10) n)

/-- 00_scope R14: the six conditions by their codes, and their tests; codes 110 and 111 are reserved. -/
def Obligations.ConditionTestsTheRegister : Prop :=
  ∀ (c : Config) (v : Word),
    taken c (Cond.ofCode 0b000#3) v = some false ∧
    taken c (Cond.ofCode 0b001#3) v = some true ∧
    taken c (Cond.ofCode 0b010#3) v = some (decide (v.toNat = 0)) ∧
    taken c (Cond.ofCode 0b011#3) v = some (decide (v.toNat ≠ 0)) ∧
    taken c (Cond.ofCode 0b100#3) v = some (decide (v.getLsbD 31 = false)) ∧
    taken c (Cond.ofCode 0b101#3) v = some (decide (v.getLsbD 31 = true)) ∧
    Cond.ofCode 0b110#3 = .reserved6 ∧ Cond.ofCode 0b111#3 = .reserved7

/-- 43_branch_jump R192: the delayed-branch primitive; its two refusals are the spec's decisions D13 and D3. -/
def Obligations.DelayedBranchPrimitive : Prop :=
  ∀ (t : Word) (s : State), s.config.misalignedPc = .refuse →
    (s.slot ≠ none → delayedBranch t s = .refused .transferInDelaySlot) ∧
    (s.slot = none → t.extractLsb' 0 2 ≠ 0#2 → delayedBranch t s = .refused .misalignedTarget) ∧
    (s.slot = none → t.extractLsb' 0 2 = 0#2 → delayedBranch t s = .next { s with bt := some t })

/-! ## Results of the instructions -/

/-- 40_immediate_alu R131, R133, R135, R137: ADDI, ORI, ANDI, MOVI with imm17; the format is the spec's decision D4, the
wrapping sum D11. -/
def Obligations.Type1ImmediateResults : Prop :=
  Type1Rule 0x00000000#32 .addi (fun b imm17 => wrap (b.toInt + imm17.toInt)) ∧
  Type1Rule 0x10000000#32 .ori (fun b imm17 => b ||| imm17.signExtend 32) ∧
  Type1Rule 0x20000000#32 .andi (fun b imm17 => b &&& imm17.signExtend 32) ∧
  (∀ (c : Config) (ra : Reg) (imm17 : BitVec 17) (s : State),
    decodeWord c (0x30000000#32 ||| place ra 22 ||| place imm17 0) = .instr (.movi ra imm17) ∧
    Writes (.movi ra imm17) s ra (imm17.signExtend 32))

/-- 40_immediate_alu R130, R132, R134, R136, R138: the same with a shifted imm10, in the layout of
the spec's decision D5. -/
def Obligations.Type2ImmediateResults : Prop :=
  Type2Rule 0x08000000#32 .addi2 (fun b v => wrap (b.toInt + v.toInt)) ∧
  Type2Rule 0x18000000#32 .ori2 (fun b v => b ||| v) ∧
  Type2Rule 0x28000000#32 .andi2 (fun b v => b &&& v) ∧
  (∀ (c : Config) (ra : Reg) (mode : BitVec 2) (imm10 : BitVec 10) (shamt : BitVec 5),
    c.type2Layout = .modeImmShamt →
    ∃ t : Type2,
      decodeWord c (0x38000000#32 ||| place ra 22 ||| place mode 15 ||| place imm10 5 ||| place shamt 0)
        = .instr (.movi2 ra t) ∧
      ∀ s : State, Writes (.movi2 ra t) s ra (shiftedImmediate mode imm10 shamt))

/-- 41_register_alu R151, R152, R154: ADD, SUB, NEG; that they wrap is the spec's decision D11. -/
def Obligations.AddSubNegResults : Prop :=
  BinaryRule 0x40000000#32 .add (fun b c => wrap (b.toInt + c.toInt)) ∧
  BinaryRule 0x48000000#32 .sub (fun b c => wrap (b.toInt - c.toInt)) ∧
  UnaryRule 0x58000000#32 .neg (fun c => wrap (0 - c.toInt))

/-- 41_register_alu R153, R155, R156, R157: NOT, OR, AND, XOR. -/
def Obligations.BitwiseResults : Prop :=
  UnaryRule 0x50000000#32 .not (fun c => ~~~ c) ∧
  BinaryRule 0x60000000#32 .or (fun b c => b ||| c) ∧
  BinaryRule 0x68000000#32 .and (fun b c => b &&& c) ∧
  BinaryRule 0x70000000#32 .xor (fun b c => b ^^^ c)

/-- 42_shift R173, R174: LSR is the floor division of the unsigned value by 2^n, SHL the product with 2^n modulo 2^32. -/
def Obligations.LogicalShiftResults : Prop :=
  ShiftRule 0x80000000#32 .lsr .lsrR (fun v n => BitVec.ofNat 32 (v.toNat / 2 ^ n.toNat)) ∧
  ShiftRule 0x88000000#32 .shl .shlR (fun v n => BitVec.ofNat 32 (v.toNat * 2 ^ n.toNat))

/-- 42_shift R172, R175, by the spec's decision D12: ASR is the floor division of the signed value by 2^n, ROR puts the bits
that leave on the right back on the left. -/
def Obligations.ArithmeticShiftAndRotateResults : Prop :=
  ShiftRule 0x78000000#32 .asr .asrR (fun v n => wrap (v.toInt / 2 ^ n.toNat)) ∧
  ShiftRule 0x90000000#32 .ror .rorR (fun v n => v >>> n.toNat ||| v <<< (32 - n.toNat))

/-- 43_branch_jump R196: BR; the two refusals are the spec's decisions D13 and D3. -/
def Obligations.BrBranchesWhenTheConditionHolds : Prop :=
  ∀ (rb rc : Reg) (cond : Cond) (s : State), (Instr.br rb rc cond).wellFormed s.config = true →
    decodeWord s.config (0x98000000#32 ||| place rb 17 ||| place rc 12 ||| place cond.code 0) = .instr (.br rb rc cond) ∧
    (taken s.config cond (s.reg rc) = some false → exec (.br rb rc cond) s = .next s) ∧
    (taken s.config cond (s.reg rc) = some true → s.slot = none → isAligned (s.reg rb) = true →
      exec (.br rb rc cond) s = .next { s with bt := some (s.reg rb) }) ∧
    (taken s.config cond (s.reg rc) = some true → s.slot ≠ none →
      exec (.br rb rc cond) s = .refused .transferInDelaySlot) ∧
    (taken s.config cond (s.reg rc) = some true → s.slot = none → isAligned (s.reg rb) = false →
      s.config.misalignedPc = .refuse → exec (.br rb rc cond) s = .refused .misalignedTarget)

/-- 43_branch_jump R197: BRL whose link register is no source; the link is written whether the branch is taken or not. The
refusals are the spec's decisions D13 and D3. -/
def Obligations.BrlLinksAlwaysAndBranchesWhenTheConditionHolds : Prop :=
  ∀ (ra rb rc : Reg) (cond : Cond) (s : State), (Instr.brl ra rb rc cond).wellFormed s.config = true →
    decodeWord s.config (0xA0000000#32 ||| place ra 22 ||| place rb 17 ||| place rc 12 ||| place cond.code 0)
      = .instr (.brl ra rb rc cond) ∧
    (¬(cond ≠ .nv ∧ ra = rb) → ¬(testsRc cond = true ∧ ra = rc) →
      (taken s.config cond (s.reg rc) = some false → Writes (.brl ra rb rc cond) s ra s.pc) ∧
      (taken s.config cond (s.reg rc) = some true → s.slot = none → isAligned (s.reg rb) = true →
        ∃ t, exec (.brl ra rb rc cond) s = .next { t with bt := some (s.reg rb) } ∧ t.reg ra = s.pc ∧
          OnlyRegChanged ra s t) ∧
      (taken s.config cond (s.reg rc) = some true → s.slot ≠ none →
        exec (.brl ra rb rc cond) s = .refused .transferInDelaySlot) ∧
      (taken s.config cond (s.reg rc) = some true → s.slot = none → isAligned (s.reg rb) = false →
        s.config.misalignedPc = .refuse → exec (.brl ra rb rc cond) s = .refused .misalignedTarget))

/-- 43_branch_jump R200: a BRL whose link register is also a source is refused, by the spec's decision D15; under the two
readings that R200 describes, which the model offers as switches (its own choice, log 17), it tests and branches to the old values, or to the link value. -/
def Obligations.OverlappingBrlIsRefusedOrReadsOldOrNewValues : Prop :=
  ∀ (ra rb rc : Reg) (cond : Cond) (s : State), ((cond ≠ .nv ∧ ra = rb) ∨ (testsRc cond = true ∧ ra = rc)) →
    (s.config.brlOverlap = .refuse → exec (.brl ra rb rc cond) s = .refused .linkOverlap) ∧
    (s.slot = none → isAligned s.pc = true → isAligned (s.reg rb) = true →
      (s.config.brlOverlap = .oldValues → ∀ b, taken s.config cond (s.reg rc) = some b →
        ∃ t, exec (.brl ra rb rc cond) s = .next { t with bt := if b then some (s.reg rb) else s.bt } ∧
          t.reg ra = s.pc ∧ OnlyRegChanged ra s t) ∧
      (s.config.brlOverlap = .newValues →
        ∀ b, taken s.config cond (if ra = rc then s.pc else s.reg rc) = some b →
        ∃ t, exec (.brl ra rb rc cond) s
            = .next { t with bt := if b then some (if ra = rb then s.pc else s.reg rb) else s.bt } ∧
          t.reg ra = s.pc ∧ OnlyRegChanged ra s t))

/-- 43_branch_jump R198: J; the wrapping address is the spec's decision D32, the two refusals D13 and D3. -/
def Obligations.JumpIsRelativeToCurrentPc : Prop :=
  ∀ (c : Config) (imm22 : BitVec 22) (s : State),
    decodeWord c (0xA8000000#32 ||| place imm22 0) = .instr (.j imm22) ∧
    (s.slot = none → isAligned (relativeAddress imm22 s) = true →
      exec (.j imm22) s = .next { s with bt := some (relativeAddress imm22 s) }) ∧
    (s.slot ≠ none → exec (.j imm22) s = .refused .transferInDelaySlot) ∧
    (s.slot = none → isAligned (relativeAddress imm22 s) = false → s.config.misalignedPc = .refuse →
      exec (.j imm22) s = .refused .misalignedTarget)

/-- 43_branch_jump R199: JL; decisions D32, D13, D3 as for J. -/
def Obligations.JumpAndLinkStoresCurrentPc : Prop :=
  ∀ (c : Config) (ra : Reg) (imm22 : BitVec 22) (s : State),
    decodeWord c (0xB0000000#32 ||| place ra 22 ||| place imm22 0) = .instr (.jl ra imm22) ∧
    (s.slot = none → isAligned (relativeAddress imm22 s) = true →
      ∃ t, exec (.jl ra imm22) s = .next { t with bt := some (relativeAddress imm22 s) } ∧ t.reg ra = s.pc ∧
        OnlyRegChanged ra s t) ∧
    (s.slot ≠ none → exec (.jl ra imm22) s = .refused .transferInDelaySlot) ∧
    (s.slot = none → isAligned (relativeAddress imm22 s) = false → s.config.misalignedPc = .refuse →
      exec (.jl ra imm22) s = .refused .misalignedTarget)

/-- 44_load_store R221 to R223, R226: LD and LDR from plain data memory, and LEA. Data memory
for both loads is the spec's decision D16, the wrapping address D32. -/
def Obligations.LoadResults : Prop :=
  (∀ (c : Config) (ra rb : Reg) (imm17 : BitVec 17) (s : State),
    decodeWord c (0xB8000000#32 ||| place ra 22 ||| place rb 17 ||| place imm17 0) = .instr (.ld ra rb imm17) ∧
    (PlainData s (baseAddress rb imm17 s) →
      Writes (.ld ra rb imm17) s ra (s.dmem.word (wordIndex (baseAddress rb imm17 s))))) ∧
  (∀ (c : Config) (ra : Reg) (imm22 : BitVec 22) (s : State),
    decodeWord c (0xC0000000#32 ||| place ra 22 ||| place imm22 0) = .instr (.ldr ra imm22) ∧
    (PlainData s (relativeAddress imm22 s) →
      Writes (.ldr ra imm22) s ra (s.dmem.word (wordIndex (relativeAddress imm22 s))))) ∧
  (∀ (c : Config) (ra : Reg) (imm22 : BitVec 22) (s : State),
    decodeWord c (0xD8000000#32 ||| place ra 22 ||| place imm22 0) = .instr (.lea ra imm22) ∧
    Writes (.lea ra imm22) s ra (relativeAddress imm22 s))

/-- 44_load_store R221, R224, R225: ST and STR to plain data memory; decisions D16, D32. -/
def Obligations.StoreResults : Prop :=
  (∀ (c : Config) (ra rb : Reg) (imm17 : BitVec 17) (s : State),
    decodeWord c (0xC8000000#32 ||| place ra 22 ||| place rb 17 ||| place imm17 0) = .instr (.st ra rb imm17) ∧
    (s.dmem.wf = true → PlainData s (baseAddress rb imm17 s) →
      Stores (.st ra rb imm17) s (baseAddress rb imm17 s) (s.reg ra))) ∧
  (∀ (c : Config) (ra : Reg) (imm22 : BitVec 22) (s : State),
    decodeWord c (0xD0000000#32 ||| place ra 22 ||| place imm22 0) = .instr (.str ra imm22) ∧
    (s.dmem.wf = true → PlainData s (relativeAddress imm22 s) →
      Stores (.str ra imm22) s (relativeAddress imm22 s) (s.reg ra)))

/-- 45_interrupt_control R250, R251: IEN and IDS; the format is the spec's decision D7. -/
def Obligations.InterruptEnableAndDisable : Prop :=
  ∀ (c : Config) (s : State),
    decodeWord c 0xE8000000#32 = .instr .ien ∧ exec .ien s = .next { s with ie := true } ∧
    decodeWord c 0xF0000000#32 = .instr .ids ∧ exec .ids s = .next { s with ie := false }

/-- 45_interrupt_control R252: RFI, at once by the spec's decision D14, with the refusals of D13 and D3. -/
def Obligations.ReturnFromInterruptRestoresPcAndEnables : Prop :=
  ∀ (c : Config) (s : State),
    decodeWord c 0xF8000000#32 = .instr .rfi ∧
    (s.slot = none → isAligned (s.reg 31#5) = true → exec .rfi s = .next { s with pc := s.reg 31#5, ie := true }) ∧
    (s.slot ≠ none → exec .rfi s = .refused .transferInDelaySlot) ∧
    (s.slot = none → isAligned (s.reg 31#5) = false → s.config.misalignedPc = .refuse →
      exec .rfi s = .refused .misalignedTarget)

/-! ## Data memory -/

/-- 20_memory R64, the spec's decision D2: the low two bits of a data address are ignored, or, by the parameter, refused.
That the refusal comes before the stuck access of R70, outside DMEM_RANGE, is the model's own choice (log 34). -/
def Obligations.LowAddressBitsAreIgnoredOrRefused : Prop :=
  ∀ (ra : Reg) (ea v : Word) (s : State),
    (s.config.misalignedData = .ignoreBits →
      loadWord ra ea s = loadWord ra (ea &&& 0xFFFFFFFC#32) s ∧ storeWord ea v s = storeWord (ea &&& 0xFFFFFFFC#32) v s) ∧
    (s.config.misalignedData = .refuse → ea.extractLsb' 0 2 ≠ 0#2 →
      loadWord ra ea s = .refused .misalignedData ∧ storeWord ea v s = .refused .misalignedData)

/-- 20_memory R70, the spec's decision D26: outside the implemented ranges there is no step. -/
def Obligations.AccessOutsideImplementedMemoryIsStuck : Prop :=
  (∀ s : State, Quiet s → AlignedUnlessKept s.config s.pc → implemented s.config.pmemRange (wordIndex s.pc) = false →
    step s = .fault .stuckFetch) ∧
  (∀ (i : Instr) (s : State) (ea : Word), (loadAddress s i = some ea ∨ storeAddress s i = some ea) →
    (s.config.misalignedData = .refuse → isAligned ea = true) → implemented s.config.dmemRange (wordIndex ea) = false →
    exec i s = .fault .stuckData)

/-- 20_memory R68 and log 22 (the model's choice): a load from a device completes with a free value, whatever it is, and
draws one; a store to a device changes no memory and hands the device the word. -/
def Obligations.DeviceAccessCompletes : Prop :=
  ∀ (i : Instr) (s : State) (ea : Word), (s.config.misalignedData = .refuse → isAligned ea = true) →
    implemented s.config.dmemRange (wordIndex ea) = true → implemented s.config.deviceRange (wordIndex ea) = true →
    (loadAddress s i = some ea → ∃ t ra, exec i s = .next { t with draws := s.draws + 1 } ∧ writtenReg i = some ra ∧
      OnlyRegChanged ra s t) ∧
    (∀ ra, ((∃ rb imm17, i = .st ra rb imm17) ∨ ∃ imm22, i = .str ra imm22) → storeAddress s i = some ea →
      exec i s = .next { s with outputs := s.outputs ++ [.deviceWrite (wordIndex ea) (s.reg ra)] })

/-- 20_memory R74, the spec's decision D25: a load gives the value of the most recent store to the same word; a store to another word does
not change it. -/
def Obligations.LoadReturnsTheLastStore : Prop :=
  ∀ (s : State) (ra rb rd re : Reg) (imm imm' : BitVec 17), s.dmem.wf = true →
    PlainData s (baseAddress rb imm s) → PlainData s (baseAddress re imm' s) →
    ∃ t u, exec (.st ra rb imm) s = .next t ∧ exec (.ld rd re imm') t = .next u ∧
      u.reg rd = (if wordIndex (baseAddress re imm' s) = wordIndex (baseAddress rb imm s) then s.reg ra
        else s.dmem.word (wordIndex (baseAddress re imm' s)))

/-- 20_memory R61, R62, R76 and 10_state R41: the fetch reads program memory at `a[31:2]`; no instruction reads program
memory, LDR included by the spec's decision D16 (log 20), and no step changes it; only ST and STR change data memory, in
the word they store to, since RST keeps it by the spec's decision D33 (log 5). -/
def Obligations.OnlyStoresChangeMemory : Prop :=
  (∀ s : State, isAligned s.pc = true → implemented s.config.pmemRange (wordIndex s.pc) = true →
    fetch s = .word (s.pmem.word (s.pc.extractLsb' 2 30))) ∧
  (∀ (i : Instr) (s : State) (m : Memory),
    Alike (fun t u => u = { t with pmem := u.pmem }) (exec i s) (exec i { s with pmem := m })) ∧
  (∀ s t : State, step s = .next t → t.pmem = s.pmem) ∧
  (∀ (i : Instr) (s t : State), s.dmem.wf = true → exec i s = .next t → ∀ k, t.dataWord k ≠ s.dataWord k →
    ∃ ea, storeAddress s i = some ea ∧ k = wordIndex ea) ∧
  (∀ s t : State, step s = .next t → t.dmem ≠ s.dmem →
    ∃ i, FetchesInstr s i ∧ ((∃ ra rb imm17, i = .st ra rb imm17) ∨ (∃ ra imm22, i = .str ra imm22)))

/-! ## The instruction cycle -/

/-- 10_state R42, C2 to C7 (`bt` and `slot` are the spec's decision D13): at a quiet boundary a step executes the fetched instruction, with IR, PC, bt and slot as
the cycle sets them before, and the delayed branch after. -/
def Obligations.StepRunsTheDecodedInstruction : Prop :=
  ∀ (s : State) (w : Word) (i : Instr), Quiet s → Fetches s w → decodeWord s.config w = .instr i →
    step s =
      match exec i { s with inputs := s.inputs.tail, ir := w, pc := s.pc + 4#32, slot := s.bt, bt := none } with
      | .next u => .next (match u.slot with
        | none => u
        | some t => { u with pc := t, slot := none })
      | .fault f => .fault f
      | .refused r => .refused r

/-- 10_state R32: PC increases by 4, and every instruction that reads PC sees its own address + 4, in a delay slot too. The
wrap of PC and of the relative addresses is the spec's decisions D24 and D32 (log 27), data memory for LDR and STR its
decision D16 (log 20). -/
def Obligations.CurrentPcIsTheInstructionsAddressPlusFour : Prop :=
  (∀ (s t : State) (i : Instr), Quiet s → FetchesInstr s i → i ≠ .rfi → s.bt = none → step s = .next t →
    t.pc.toNat = (s.pc.toNat + 4) % 2 ^ 32) ∧
  (∀ (s : State) (ra : Reg) (imm22 : BitVec 22), Quiet s → FetchesInstr s (.lea ra imm22) →
    ∃ t, step s = .next t ∧ t.reg ra = wrap (s.pc.toNat + 4 + imm22.toInt)) ∧
  (∀ (s t : State) (i : Instr), Quiet s → FetchesInstr s i →
    (∃ ra imm22, i = .jl ra imm22) ∨ (∃ ra rb rc cond, i = .brl ra rb rc cond) → step s = .next t →
    ∃ ra, writtenReg i = some ra ∧ (t.reg ra).toNat = (s.pc.toNat + 4) % 2 ^ 32) ∧
  (∀ (s t : State) (i : Instr) (imm22 : BitVec 22), Quiet s → FetchesInstr s i →
    i = .j imm22 ∨ (∃ ra, i = .jl ra imm22) → s.config.misalignedPc = .refuse → step s = .next t →
    t.bt = some (wrap (s.pc.toNat + 4 + imm22.toInt))) ∧
  (∀ (s : State) (ra : Reg) (imm22 : BitVec 22), Quiet s → FetchesInstr s (.ldr ra imm22) →
    PlainData s (wrap (s.pc.toNat + 4 + imm22.toInt)) →
    ∃ t, step s = .next t ∧ t.reg ra = s.dmem.word (wordIndex (wrap (s.pc.toNat + 4 + imm22.toInt)))) ∧
  (∀ (s : State) (ra : Reg) (imm22 : BitVec 22), s.dmem.wf = true → Quiet s → FetchesInstr s (.str ra imm22) →
    PlainData s (wrap (s.pc.toNat + 4 + imm22.toInt)) →
    ∃ t, step s = .next t ∧ t.dmem.word (wordIndex (wrap (s.pc.toNat + 4 + imm22.toInt))) = s.reg ra)

/-- 43_branch_jump R191: the instruction after a J, JL, BR or BRL executes once, from its own address, whether the branch is
taken or not; control is then at the target, or at the branch's address + 8. The branch itself stands in no delay slot.
`bt` and `slot` are the spec's decision D13 (logs 4 and 18), RFI at once, the exception, its decision D14 (log 19). -/
def Obligations.DelaySlotExecutesThenControlIsAtTheTarget : Prop :=
  ∀ (s t u : State) (i : Instr), Quiet s → Quiet t → FetchesInstr s i → hasDelaySlot i = true →
    s.bt = none → step s = .next t → step t = .next u →
    t.pc = s.pc + 4#32 ∧ t.slot = none ∧ u.ir = t.pmem.word (wordIndex (s.pc + 4#32)) ∧ u.slot = none ∧
    (∀ target, t.bt = some target → u.pc = target ∧ u.bt = none) ∧
    (t.bt = none → ¬ FetchesInstr t .rfi → u.pc = s.pc + 8#32)

/-- 43_branch_jump R201, the spec's decision D13: an instruction that transfers control is refused in the delay slot of a taken branch; a BR or
BRL whose condition does not hold is allowed there, and the BRL still links. -/
def Obligations.ControlTransferInADelaySlotIsRefused : Prop :=
  ∀ (s : State), s.slot ≠ none →
    (∀ (i : Instr) (target : Word), transferTarget s i = some target → overlappingBrl i = false →
      exec i s = .refused .transferInDelaySlot) ∧
    (∀ (rb rc : Reg) (cond : Cond), taken s.config cond (s.reg rc) = some false → exec (.br rb rc cond) s = .next s) ∧
    (∀ (ra rb rc : Reg) (cond : Cond), taken s.config cond (s.reg rc) = some false → linkOverlaps ra rb rc cond = false →
      Writes (.brl ra rb rc cond) s ra s.pc)

/-- 10_state R35, the spec's decision D3: a transfer to an address that is no multiple of 4 is refused; under the two guesses of D3 (log 15,
the model's choice to offer them) it goes to the address with the two bits cleared, or kept. -/
def Obligations.MisalignedTargetIsRefusedOrAdjusted : Prop :=
  ∀ (i : Instr) (s : State) (target : Word), s.slot = none → transferTarget s i = some target →
    overlappingBrl i = false → isAligned target = false →
    (s.config.misalignedPc = .refuse → exec i s = .refused .misalignedTarget) ∧
    (s.config.misalignedPc = .clearBits → ∃ t, exec i s = .next t ∧
      (if i = .rfi then t.pc = target &&& 0xFFFFFFFC#32 else t.bt = some (target &&& 0xFFFFFFFC#32))) ∧
    (s.config.misalignedPc = .keepBits → ∃ t, exec i s = .next t ∧
      (if i = .rfi then t.pc = target else t.bt = some target))

/-! ## Reset and the interrupt -/

/-- 10_state R45, 70_reset_and_hazards R302: what the spec gives after reset (`bt` by its decision D23). -/
def Obligations.ResetLeavesPcAndIeZero : Prop :=
  State.reset.pc = 0x00000000#32 ∧ State.reset.ie = false ∧ State.reset.bt = none

/-- 70_reset_and_hazards R300 (`bt` by the spec's decision D23, memory kept by D33): RST high makes its changes whatever the state, executes no instruction and leaves the
memories; when RST is low the next cycle fetches at PC 0, since IE is 0. -/
def Obligations.ResetEventOverridesEverything : Prop :=
  ∀ s : State, s.pins.rst = true →
    ∃ t, step s = .next t ∧ t.pc = 0x00000000#32 ∧ t.ie = false ∧ t.bt = none ∧ t.slot = none ∧
      t.pmem = s.pmem ∧ t.dmem = s.dmem ∧ t.outputs = s.outputs ∧ t.config = s.config ∧ t.inputs = s.inputs.tail ∧
      (t.pins.rst = false → Quiet t)

/-- 60_exceptions R266 to R268: interrupt entry, in one indivisible step; what IPC receives is the spec's decision D18, the
IACK event D20, the vector a free parameter (D17). -/
def Obligations.InterruptEntrySavesPcAndClearsIe : Prop :=
  ∀ s : State, s.pins.rst = false → s.pins.ireq = true → s.ie = true → s.bt = none →
    ∃ t, step s = .next t ∧ t.reg 31#5 = s.pc ∧ t.ie = false ∧ t.outputs = s.outputs ++ [.iack] ∧
      t.pc = s.config.intVector ++ 0#2 ∧ (∀ r, r ≠ 31#5 → t.reg r = s.reg r) ∧ t.ir = s.ir ∧ t.bt = none ∧
      t.slot = s.slot ∧ (∀ k, t.dataWord k = s.dataWord k) ∧ (∀ k, t.progWord k = s.progWord k) ∧
      t.draws = s.draws ∧ t.inputs = s.inputs.tail ∧ t.config = s.config

/-- 60_exceptions R263, R265, the spec's decision D18: an interrupt is recognised exactly when IE is 1 and IREQ is asserted at the boundary, RST
being low and no branch pending; with IE 0 the level of IREQ makes no difference and is not remembered. -/
def Obligations.RequestIsIgnoredWhileDisabled : Prop :=
  (∀ s : State, boundary s = .entry ↔ s.pins.rst = false ∧ s.pins.ireq = true ∧ s.ie = true ∧ s.bt = none) ∧
  (∀ (s : State) (rest : List Pins), s.ie = false →
    step { s with inputs := ⟨false, true⟩ :: rest } = step { s with inputs := ⟨false, false⟩ :: rest })

/-- 60_exceptions R269, the spec's decision D19: at the boundary between a taken branch and its delay slot a request is
refused, or held by the named alternative, under which the delay-slot instruction runs as if there were none and a request
at the next boundary is taken with the branch's target in IPC. -/
def Obligations.RequestBetweenBranchAndDelaySlot : Prop :=
  (∀ (s : State) (target : Word), s.pins = ⟨false, true⟩ → s.ie = true → s.bt = some target →
    s.config.irqInDelaySlot = .refuse → step s = .refused .irqInDelaySlot) ∧
  (∀ (s : State) (target : Word) (rest : List Pins), s.ie = true → s.bt = some target →
    s.config.irqInDelaySlot = .hold →
    step { s with inputs := ⟨false, true⟩ :: rest } = step { s with inputs := ⟨false, false⟩ :: rest }) ∧
  (∀ (s t : State) (target : Word), s.pins = ⟨false, true⟩ → s.ie = true → s.bt = some target →
    s.config.irqInDelaySlot = .hold → step s = .next t → t.ie = true → t.pins = ⟨false, true⟩ →
    ∃ u, step t = .next u ∧ u.reg 31#5 = target ∧ u.pc = s.config.intVector ++ 0#2 ∧ u.ie = false)

/-- 60_exceptions R271, R272, with the spec's decisions D14 and D18: a routine that leaves IPC as entry wrote it and ends in RFI resumes the interrupted program
at the instruction that had not executed, with IE set. -/
def Obligations.ReturnResumesTheInterruptedProgram : Prop :=
  ∀ s t u : State, s.Inv → boundary s = .entry → step s = .next t → Quiet u → u.bt = none →
    u.config = s.config → u.reg 31#5 = t.reg 31#5 → FetchesInstr u .rfi →
    ∃ v, step u = .next v ∧ v.pc = s.pc ∧ v.ie = s.ie ∧ (∀ r, v.reg r = u.reg r) ∧ v.dmem = u.dmem

/-- 60_exceptions R267, the spec's decision D20, and the model's log 23: outputs are only added to, and a step adds an IACK event exactly when it is
an interrupt entry. -/
def Obligations.OneAcknowledgePerEntry : Prop :=
  ∀ s t : State, step s = .next t →
    s.outputs <+: t.outputs ∧
    t.outputs.count .iack = s.outputs.count .iack + (if boundary s = .entry then 1 else 0)

/-! ## The whole machine -/

/-- 10_state R46: every writer of IE, and that its only reader is the interrupt check at the boundary. -/
def Obligations.WritersAndReaderOfIe : Prop :=
  (∀ (i : Instr) (s t : State), exec i s = .next t → t.ie = (if i = .ien ∨ i = .rfi then true else if i = .ids then false else s.ie)) ∧
  (∀ s t : State, step s = .next t → boundary s = .reset ∨ boundary s = .entry → t.ie = false) ∧
  (∀ (s : State) (b : Bool), boundary { s with ie := b } = boundary s →
    Alike (fun t u => u = { t with ie := u.ie }) (step s) (step { s with ie := b }))

/-- 10_state R34 (RFI at once by the spec's decision D14): RFI alone writes PC, J, JL, BR and BRL alone set a pending target, and only J, JL, BRL, LDR, STR and LEA
read currentPC. -/
def Obligations.AccessToPc : Prop :=
  (∀ (i : Instr) (s t : State), exec i s = .next t → t.pc ≠ s.pc → i = .rfi) ∧
  (∀ (i : Instr) (s t : State), exec i s = .next t → t.bt ≠ s.bt → hasDelaySlot i = true) ∧
  (∀ (i : Instr) (s : State) (a : Word), readsCpc i = false →
    Alike (fun t u => u = { t with pc := u.pc }) (exec i s) (exec i { s with pc := a }))

/-- 10_state R47: an instruction changes no general register but its destination, and what it does depends on no general
register but those it reads; interrupt entry writes x[31] alone. The reading of BRL by sequential code, which the model
offers as a switch (log 17), reads its own link value and is set aside. -/
def Obligations.RegistersReadAndWritten : Prop :=
  (∀ (i : Instr) (s s' : State), s' = { s with regs := s'.regs } → (∀ r ∈ readRegs s i, s'.reg r = s.reg r) →
    (overlappingBrl i = true → s.config.brlOverlap ≠ .newValues) →
    Alike (fun t t' => t' = { t with regs := t'.regs } ∧
      (∀ r, writtenReg i = some r → t'.reg r = t.reg r) ∧
      (∀ r, writtenReg i ≠ some r → t.reg r = s.reg r ∧ t'.reg r = s'.reg r)) (exec i s) (exec i s')) ∧
  (∀ s t : State, boundary s = .entry → step s = .next t → ∀ r, r ≠ 31#5 → t.reg r = s.reg r)

/-- 93_implementation_defined section 1: under the decided switches an instruction completes exactly when none of the
situations arises to which the spec gives no meaning. -/
def Obligations.InstructionCompletesExactlyWhenDefined : Prop :=
  ∀ (i : Instr) (s : State), DecidedSwitches s.config →
    ((∃ t, exec i s = .next t) ↔
      (∀ a, transferTarget s i = some a → s.slot = none ∧ isAligned a = true) ∧ overlappingBrl i = false ∧
      hasReservedCond i = false ∧
      (∀ a, loadAddress s i = some a ∨ storeAddress s i = some a → implemented s.config.dmemRange (wordIndex a) = true))

/-- 60_exceptions R262 and 93_implementation_defined section 1: the complete set of stops. No instruction faults but a
load or store, and under the decided switches a step is refused for six reasons only; none is "not modelled". -/
def Obligations.StopsAreThoseTheSpecLists : Prop :=
  (∀ (i : Instr) (s : State) (f : Fault), exec i s = .fault f →
    f = .stuckData ∧ ∃ ea, loadAddress s i = some ea ∨ storeAddress s i = some ea) ∧
  (∀ (s : State) (r : Refusal), DecidedSwitches s.config → step s = .refused r →
    r = .reservedOpcode ∨ r = .reservedCond ∨ r = .misalignedTarget ∨ r = .transferInDelaySlot ∨ r = .linkOverlap ∨
      r = .irqInDelaySlot) ∧
  (∀ (s : State) (m : String), step s ≠ .refused (.notModelled m))

/-- The invariant holds after reset. -/
def Obligations.ResetStateMeetsTheInvariant : Prop := State.reset.Inv

/-- 10_state R35, R42 and the memory form of log 6: from every state that meets it, every step that goes on keeps the
invariant, and the machine's parameters. -/
def Obligations.EveryStepKeepsTheInvariant : Prop :=
  ∀ s t : State, s.Inv → step s = .next t → t.Inv ∧ t.config = s.config

/-- 30_encoding section 6 (R112, R113, R114; decision D30, log 33): the assembler reads the line of every well-formed
instruction as that instruction; a reserved condition has no suffix, so its line is refused. An immediate may be written
signed or as a raw pattern, and outside the range of R114 it is refused. -/
def Obligations.AssemblerReadsEveryInstructionsLine : Prop :=
  (∀ (c : Config) (i : Instr), i.wellFormed c = true → assemble i.line = if hasReservedCond i then none else some i) ∧
  (∀ (ra rb : Reg) (v : Int),
    (-65536 ≤ v ∧ v ≤ 131071 → assemble (line .addi [.reg ra, .reg rb, .imm v]) = some (.addi ra rb (BitVec.ofInt 17 (v % 131072)))) ∧
    (v < -65536 ∨ 131071 < v → assemble (line .addi [.reg ra, .reg rb, .imm v]) = none))
end

