-- ==== Sys2Proof/Laws/Encoding.lean ====
section
/-! SUPPORT. What `field` reads of a word that `place` has put together: the facts a proof about encodings needs. -/

namespace Sys2Proof

theorem field_or (a b : Word) (lo n : Nat) : field (a ||| b) lo n = field a lo n ||| field b lo n := by
  simp [field, BitVec.extractLsb'_or]

theorem getLsbD_place {n : Nat} (v : BitVec n) (lo k : Nat) :
    (place v lo).getLsbD k = (decide (k < 32) && decide (lo ≤ k) && v.getLsbD (k - lo)) := by
  unfold place
  rw [BitVec.getLsbD_shiftLeft, BitVec.getLsbD_setWidth]
  by_cases hk : k < 32
  · by_cases hl : lo ≤ k
    · simp [hk, hl, show ¬ k < lo by omega, show k - lo < 32 by omega]
    · simp [hl, show k < lo by omega]
  · simp [hk]

/-- A field is read back where it was placed. -/
theorem field_place_same {n : Nat} (v : BitVec n) (lo : Nat) (h : lo + n ≤ 32) : field (place v lo) lo n = v := by
  apply BitVec.eq_of_getLsbD_eq
  intro k hk
  simp only [field, BitVec.getLsbD_extractLsb', getLsbD_place]
  simp [hk, show lo + k < 32 by omega]

/-- A field reads zeros where another field was placed. -/
theorem field_place_apart {m : Nat} (v : BitVec m) (lo' lo n : Nat) (h : lo' + m ≤ lo ∨ lo + n ≤ lo') :
    field (place v lo') lo n = 0#n := by
  apply BitVec.eq_of_getLsbD_eq
  intro k hk
  simp only [field, BitVec.getLsbD_extractLsb', getLsbD_place, BitVec.getLsbD_zero, hk, decide_true, Bool.true_and]
  rcases h with h | h
  · rw [BitVec.getLsbD_of_ge v (lo + k - lo') (by omega)]
    simp
  · simp [show ¬ lo' ≤ lo + k by omega]

theorem ShiftMode.ofCode_code (m : ShiftMode) : ShiftMode.ofCode m.code = m := by cases m <;> rfl

theorem ShiftMode.code_ofCode (c : BitVec 2) : (ShiftMode.ofCode c).code = c := by revert c; decide

theorem Cond.ofCode_code (c : Cond) : Cond.ofCode c.code = c := by cases c <;> rfl

theorem Cond.code_ofCode (c : BitVec 3) : (Cond.ofCode c).code = c := by revert c; decide

/-- Every bit of a type-2 operand lies in bits 16..0, whatever the layout. -/
theorem field_encodeType2_apart (l : Type2Layout) (t : Type2) (lo n : Nat) (h : 17 ≤ lo) :
    field (encodeType2 l t) lo n = 0#n := by
  unfold encodeType2
  rw [field_or, field_or]
  cases l <;> simp only [Type2Layout.modeLo, Type2Layout.immLo, Type2Layout.shamtLo] <;>
    rw [field_place_apart _ _ _ _ (by omega), field_place_apart _ _ _ _ (by omega), field_place_apart _ _ _ _ (by omega)] <;>
    simp

/-- A type-2 operand placed in a word is read back from the word's low 17 bits. -/
theorem type2Of_or_encodeType2 (l : Type2Layout) (t : Type2) (w : Word) (h : field w 0 17 = 0#17) :
    type2Of l (w ||| encodeType2 l t) = t := by
  have low : ∀ lo n, lo + n ≤ 17 → field w lo n = 0#n := by
    intro lo n hn
    apply BitVec.eq_of_getLsbD_eq
    intro k hk
    have := congrArg (fun v : BitVec 17 => v.getLsbD (lo + k)) h
    simpa [field, hk, show lo + k < 17 by omega] using this
  obtain ⟨mode, imm10, shamt⟩ := t
  unfold type2Of encodeType2
  cases l <;> simp only [Type2Layout.modeLo, Type2Layout.immLo, Type2Layout.shamtLo, field_or] <;>
    simp [low, field_place_same, field_place_apart, ShiftMode.ofCode_code]

/-! ## Masks: how a proof shows that an encoded word has no unused bit set -/

theorem or_and_mask (a b m : Word) : (a ||| b) &&& m = (a &&& m) ||| (b &&& m) := by
  apply BitVec.eq_of_getLsbD_eq
  intro k _
  simp [Bool.and_or_distrib_right]

/-- A field placed where the mask is zero is masked away. -/
theorem place_and_mask {n : Nat} (v : BitVec n) (lo : Nat) (m : Word) (h : field m lo n = 0#n) :
    place v lo &&& m = 0#32 := by
  apply BitVec.eq_of_getLsbD_eq
  intro k hk
  rw [BitVec.getLsbD_and, getLsbD_place, BitVec.getLsbD_zero]
  by_cases h1 : lo ≤ k
  · by_cases h2 : k < lo + n
    · have := congrArg (fun v : BitVec n => v.getLsbD (k - lo)) h
      simp only [field, BitVec.getLsbD_extractLsb', show k - lo < n by omega, show lo + (k - lo) = k by omega,
        decide_true, Bool.true_and, BitVec.getLsbD_zero] at this
      simp [this]
    · simp [BitVec.getLsbD_of_ge v (k - lo) (by omega)]
  · simp [h1]

/-- A type-2 operand is masked away by a mask of higher bits only. -/
theorem encodeType2_and_mask (l : Type2Layout) (t : Type2) (m : Word) (h : field m 0 17 = 0#17) :
    encodeType2 l t &&& m = 0#32 := by
  apply BitVec.eq_of_getLsbD_eq
  intro k hk
  rw [BitVec.getLsbD_and, BitVec.getLsbD_zero]
  by_cases h2 : k < 17
  · have := congrArg (fun v : BitVec 17 => v.getLsbD k) h
    simp only [field, BitVec.getLsbD_extractLsb', h2, decide_true, Bool.true_and, Nat.zero_add, BitVec.getLsbD_zero] at this
    simp [this]
  · have := congrArg (fun v : BitVec 15 => v.getLsbD (k - 17)) (field_encodeType2_apart l t 17 15 (by omega))
    simp only [field, BitVec.getLsbD_extractLsb', show k - 17 < 15 by omega, show 17 + (k - 17) = k by omega,
      decide_true, Bool.true_and, BitVec.getLsbD_zero] at this
    simp [this]

/-- Clearing bits outside a field leaves the field. -/
theorem field_masked (w m : Word) (lo n : Nat) (h : field m lo n = 0#n) : field (w &&& ~~~ m) lo n = field w lo n := by
  apply BitVec.eq_of_getLsbD_eq
  intro k hk
  have := congrArg (fun v : BitVec n => v.getLsbD k) h
  simp only [field, BitVec.getLsbD_extractLsb', hk, decide_true, Bool.true_and, BitVec.getLsbD_zero] at this
  simp only [field, BitVec.getLsbD_extractLsb', hk, decide_true, Bool.true_and, BitVec.getLsbD_and, BitVec.getLsbD_not, this]
  by_cases h32 : lo + k < 32
  · simp [h32]
  · rw [BitVec.getLsbD_of_ge w _ (by omega)]
    simp

theorem type2Of_encodeI2 (c : Config) (op : BitVec 5) (ra rb : Reg) (t : Type2) :
    type2Of c.type2Layout (encodeI2 c op ra rb t) = t := by
  unfold encodeI2
  rw [type2Of_or_encodeType2]
  simp [field_or, field_place_apart]

/-- A word with no unused bit set decodes by its fields, whatever UNUSED_BITS is. -/
theorem decodeWord_of_fields {c : Config} {i : Instr} {w : Word} (h : decodeFields c w = .instr i)
    (hm : w &&& unusedMask w = 0#32) : decodeWord c w = .instr i := by
  simp [decodeWord, h, hasForbiddenBits, hm]

end Sys2Proof
end

