-- ==== Sys2Proof/Laws/Memory.lean ====
section
/-! SUPPORT. What the memory operations do: every one keeps the canonical form, a read gives what was last
written, and no other word changes. -/

namespace Sys2Proof.Machine

/-! ## By index -/

/-- Nothing is listed below the bound of a canonical list. -/
theorem Memory.get_below {m : Memory} {lo j : Nat} (h : Memory.canonicalFrom lo m) (hj : j < lo) : m.get j = 0#32 := by
  induction m generalizing lo with
  | nil => rfl
  | cons c m ih =>
    simp only [Memory.canonicalFrom, Bool.and_eq_true, decide_eq_true_eq] at h
    have hne : c.1 ≠ j := by omega
    simp only [Memory.get, hne, if_false]
    exact ih h.2 (by omega)

theorem Memory.get_put (m : Memory) (a : Nat) (v : Word) (k : Nat) (h : m.wf) :
    (m.put a v).get k = if k = a then v else m.get k := by
  suffices H : ∀ lo, Memory.canonicalFrom lo m → (m.put a v).get k = if k = a then v else m.get k from H 0 h
  clear h
  induction m with
  | nil => intro lo _; by_cases hv : v = 0#32 <;> simp [Memory.put, Memory.get, hv, eq_comm]
  | cons c m ih =>
    intro lo hm
    simp only [Memory.canonicalFrom, Bool.and_eq_true, decide_eq_true_eq] at hm
    have tail := fun j (hj : j < c.1 + 1) => Memory.get_below hm.2 hj
    unfold Memory.put
    split
    · next hlt =>
      by_cases hv : v = 0#32
      · by_cases hk : k = a
        · have hca : c.1 ≠ a := by omega
          simp [Memory.get, hv, hk, hca, tail a (by omega)]
        · simp [hv, hk]
      · by_cases hk : k = a
        · simp [Memory.get, hv, hk]
        · simp [Memory.get, hv, hk, Ne.symm hk]
    · split
      · next _ he =>
        by_cases hk : k = a
        · by_cases hv : v = 0#32
          · simp [hv, hk, tail a (by omega)]
          · simp [Memory.get, hv, hk]
        · have hck : c.1 ≠ k := by omega
          have hak : a ≠ k := fun e => hk e.symm
          by_cases hv : v = 0#32 <;> simp [Memory.get, hv, hk, hck, hak]
      · next hge hne =>
        by_cases hck : c.1 = k
        · have : k ≠ a := by omega
          simp [Memory.get, hck, this]
        · simp only [Memory.get, hck, if_false]
          exact ih _ hm.2

theorem Memory.put_wf (m : Memory) (a : Nat) (v : Word) (h : m.wf) (ha : a < 0x40000000) : (m.put a v).wf := by
  have raise : ∀ (n : Memory) (lo lo' : Nat), lo' ≤ lo → Memory.canonicalFrom lo n → Memory.canonicalFrom lo' n := by
    intro n lo lo' hle hn
    cases n with
    | nil => rfl
    | cons c n =>
      simp only [Memory.canonicalFrom, Bool.and_eq_true, decide_eq_true_eq] at hn ⊢
      exact ⟨⟨⟨by omega, hn.1.1.2⟩, hn.1.2⟩, hn.2⟩
  suffices H : ∀ lo, lo ≤ a → Memory.canonicalFrom lo m → Memory.canonicalFrom lo (m.put a v) from H 0 (Nat.zero_le _) h
  clear h
  induction m with
  | nil =>
    intro lo hlo _
    unfold Memory.put
    split
    · rfl
    · next hv => simp [Memory.canonicalFrom, hv, hlo, ha]
  | cons c m ih =>
    intro lo hlo hm
    have hm' := hm
    simp only [Memory.canonicalFrom, Bool.and_eq_true, decide_eq_true_eq, bne_iff_ne] at hm
    obtain ⟨⟨⟨hc, hb⟩, hz⟩, ht⟩ := hm
    unfold Memory.put
    split
    · next hlt =>
      split
      · exact hm'
      · next hv => simp [Memory.canonicalFrom, hv, hlo, ha, hb, hz, ht, Nat.succ_le_of_lt hlt]
    · split
      · next _ he =>
        split
        · exact raise m _ _ (by omega) ht
        · next hv => simpa [Memory.canonicalFrom, hv, hlo, ha, he] using he ▸ ht
      · next hge hne =>
        simp only [Memory.canonicalFrom, Bool.and_eq_true, decide_eq_true_eq, bne_iff_ne]
        exact ⟨⟨⟨hc, hb⟩, hz⟩, ih _ (by omega) ht⟩

/-- Canonical lists that read alike are equal. -/
theorem Memory.ext_of_get {m n : Memory} {lo lo' : Nat} (hm : Memory.canonicalFrom lo m) (hn : Memory.canonicalFrom lo' n)
    (h : ∀ k, m.get k = n.get k) : m = n := by
  induction m generalizing n lo lo' with
  | nil =>
    cases n with
    | nil => rfl
    | cons d n =>
      simp only [Memory.canonicalFrom, Bool.and_eq_true, bne_iff_ne] at hn
      exact absurd (by simpa [Memory.get] using (h d.1).symm) hn.1.2
  | cons c m ih =>
    simp only [Memory.canonicalFrom, Bool.and_eq_true, decide_eq_true_eq, bne_iff_ne] at hm
    cases n with
    | nil => exact absurd (by simpa [Memory.get] using h c.1) hm.1.2
    | cons d n =>
      simp only [Memory.canonicalFrom, Bool.and_eq_true, decide_eq_true_eq, bne_iff_ne] at hn
      have hc := h c.1
      have hd := h d.1
      have key : c.1 = d.1 := by
        rcases Nat.lt_trichotomy c.1 d.1 with hlt | he | hgt
        · have hne : d.1 ≠ c.1 := by omega
          simp only [Memory.get, hne, if_true, if_false, Memory.get_below hn.2 (show c.1 < d.1 + 1 by omega)] at hc
          exact absurd hc hm.1.2
        · exact he
        · have hne : c.1 ≠ d.1 := by omega
          simp only [Memory.get, hne, if_true, if_false, Memory.get_below hm.2 (show d.1 < c.1 + 1 by omega)] at hd
          exact absurd hd.symm hn.1.2
      have value : c = d := Prod.ext key (by simpa [Memory.get, key] using hc)
      subst value
      refine congrArg (c :: ·) (ih hm.2 hn.2 fun k => ?_)
      by_cases e : c.1 = k
      · rw [Memory.get_below hm.2 (by omega), Memory.get_below hn.2 (by omega)]
      · simpa [Memory.get, e] using h k

/-! ## By word -/

theorem Memory.setWord_wf (m : Memory) (i : WordIndex) (v : Word) (h : m.wf) : (m.setWord i v).wf :=
  Memory.put_wf m i.toNat v h i.isLt

/-- A word read gives what was last written to the word, and no other word changes (R74). -/
theorem Memory.word_setWord (m : Memory) (i j : WordIndex) (v : Word) (h : m.wf) :
    (m.setWord i v).word j = if j = i then v else m.word j := by
  unfold Memory.word Memory.setWord
  rw [Memory.get_put m i.toNat v j.toNat h]
  simp [BitVec.toNat_inj]

/-- Well-formed memories that read alike everywhere are equal: the canonical form is one. -/
theorem Memory.ext_of_word {m n : Memory} (hm : m.wf) (hn : n.wf) (h : ∀ i, m.word i = n.word i) : m = n := by
  have index : ∀ {m : Memory} {lo k : Nat}, Memory.canonicalFrom lo m → m.get k ≠ 0#32 → k < 0x40000000 := by
    intro m
    induction m with
    | nil => intro lo k _ h; exact absurd rfl h
    | cons c m ih =>
      intro lo k hc hk
      simp only [Memory.canonicalFrom, Bool.and_eq_true, decide_eq_true_eq] at hc
      by_cases e : c.1 = k
      · omega
      · exact ih hc.2 (by simpa [Memory.get, e] using hk)
  have all : ∀ k, m.get k = n.get k := by
    intro k
    by_cases hk : k < 0x40000000
    · simpa [Memory.word, Nat.mod_eq_of_lt hk] using h (BitVec.ofNat 30 k)
    · have h0 : ∀ {p : Memory}, p.wf → p.get k = 0#32 := fun hp => Classical.byContradiction fun e => hk (index hp e)
      rw [h0 hm, h0 hn]
  exact Memory.ext_of_get hm hn all

end Sys2Proof.Machine
end

