-- ==== Sys2Proof/Laws/State.lean ====
section
/-! SUPPORT. One lemma for each field and each update of the state, all true by `rfl`, so that no later
proof unfolds a record update. -/

namespace Sys2Proof.Machine

/-! ## setReg -/

@[simp] theorem State.setReg_pc (s : State) (r : Reg) (v : Word) : (s.setReg r v).pc = s.pc := rfl
@[simp] theorem State.setReg_ir (s : State) (r : Reg) (v : Word) : (s.setReg r v).ir = s.ir := rfl
@[simp] theorem State.setReg_ie (s : State) (r : Reg) (v : Word) : (s.setReg r v).ie = s.ie := rfl
@[simp] theorem State.setReg_bt (s : State) (r : Reg) (v : Word) : (s.setReg r v).bt = s.bt := rfl
@[simp] theorem State.setReg_slot (s : State) (r : Reg) (v : Word) : (s.setReg r v).slot = s.slot := rfl
@[simp] theorem State.setReg_pmem (s : State) (r : Reg) (v : Word) : (s.setReg r v).pmem = s.pmem := rfl
@[simp] theorem State.setReg_dmem (s : State) (r : Reg) (v : Word) : (s.setReg r v).dmem = s.dmem := rfl
@[simp] theorem State.setReg_inputs (s : State) (r : Reg) (v : Word) : (s.setReg r v).inputs = s.inputs := rfl
@[simp] theorem State.setReg_outputs (s : State) (r : Reg) (v : Word) : (s.setReg r v).outputs = s.outputs := rfl
@[simp] theorem State.setReg_draws (s : State) (r : Reg) (v : Word) : (s.setReg r v).draws = s.draws := rfl
@[simp] theorem State.setReg_config (s : State) (r : Reg) (v : Word) : (s.setReg r v).config = s.config := rfl

/-! ## setPc -/

@[simp] theorem State.setPc_regs (s : State) (a : Word) : (s.setPc a).regs = s.regs := rfl
@[simp] theorem State.setPc_pc (s : State) (a : Word) : (s.setPc a).pc = a := rfl
@[simp] theorem State.setPc_ir (s : State) (a : Word) : (s.setPc a).ir = s.ir := rfl
@[simp] theorem State.setPc_ie (s : State) (a : Word) : (s.setPc a).ie = s.ie := rfl
@[simp] theorem State.setPc_bt (s : State) (a : Word) : (s.setPc a).bt = s.bt := rfl
@[simp] theorem State.setPc_slot (s : State) (a : Word) : (s.setPc a).slot = s.slot := rfl
@[simp] theorem State.setPc_pmem (s : State) (a : Word) : (s.setPc a).pmem = s.pmem := rfl
@[simp] theorem State.setPc_dmem (s : State) (a : Word) : (s.setPc a).dmem = s.dmem := rfl
@[simp] theorem State.setPc_inputs (s : State) (a : Word) : (s.setPc a).inputs = s.inputs := rfl
@[simp] theorem State.setPc_outputs (s : State) (a : Word) : (s.setPc a).outputs = s.outputs := rfl
@[simp] theorem State.setPc_draws (s : State) (a : Word) : (s.setPc a).draws = s.draws := rfl
@[simp] theorem State.setPc_config (s : State) (a : Word) : (s.setPc a).config = s.config := rfl
@[simp] theorem State.setPc_reg (s : State) (a : Word) (q : Reg) : (s.setPc a).reg q = s.reg q := rfl

/-! ## setIe -/

@[simp] theorem State.setIe_regs (s : State) (b : Bool) : (s.setIe b).regs = s.regs := rfl
@[simp] theorem State.setIe_pc (s : State) (b : Bool) : (s.setIe b).pc = s.pc := rfl
@[simp] theorem State.setIe_ir (s : State) (b : Bool) : (s.setIe b).ir = s.ir := rfl
@[simp] theorem State.setIe_ie (s : State) (b : Bool) : (s.setIe b).ie = b := rfl
@[simp] theorem State.setIe_bt (s : State) (b : Bool) : (s.setIe b).bt = s.bt := rfl
@[simp] theorem State.setIe_slot (s : State) (b : Bool) : (s.setIe b).slot = s.slot := rfl
@[simp] theorem State.setIe_pmem (s : State) (b : Bool) : (s.setIe b).pmem = s.pmem := rfl
@[simp] theorem State.setIe_dmem (s : State) (b : Bool) : (s.setIe b).dmem = s.dmem := rfl
@[simp] theorem State.setIe_inputs (s : State) (b : Bool) : (s.setIe b).inputs = s.inputs := rfl
@[simp] theorem State.setIe_outputs (s : State) (b : Bool) : (s.setIe b).outputs = s.outputs := rfl
@[simp] theorem State.setIe_draws (s : State) (b : Bool) : (s.setIe b).draws = s.draws := rfl
@[simp] theorem State.setIe_config (s : State) (b : Bool) : (s.setIe b).config = s.config := rfl
@[simp] theorem State.setIe_reg (s : State) (b : Bool) (q : Reg) : (s.setIe b).reg q = s.reg q := rfl

/-! ## setBt -/

@[simp] theorem State.setBt_regs (s : State) (t : Option Word) : (s.setBt t).regs = s.regs := rfl
@[simp] theorem State.setBt_pc (s : State) (t : Option Word) : (s.setBt t).pc = s.pc := rfl
@[simp] theorem State.setBt_ir (s : State) (t : Option Word) : (s.setBt t).ir = s.ir := rfl
@[simp] theorem State.setBt_ie (s : State) (t : Option Word) : (s.setBt t).ie = s.ie := rfl
@[simp] theorem State.setBt_bt (s : State) (t : Option Word) : (s.setBt t).bt = t := rfl
@[simp] theorem State.setBt_slot (s : State) (t : Option Word) : (s.setBt t).slot = s.slot := rfl
@[simp] theorem State.setBt_pmem (s : State) (t : Option Word) : (s.setBt t).pmem = s.pmem := rfl
@[simp] theorem State.setBt_dmem (s : State) (t : Option Word) : (s.setBt t).dmem = s.dmem := rfl
@[simp] theorem State.setBt_inputs (s : State) (t : Option Word) : (s.setBt t).inputs = s.inputs := rfl
@[simp] theorem State.setBt_outputs (s : State) (t : Option Word) : (s.setBt t).outputs = s.outputs := rfl
@[simp] theorem State.setBt_draws (s : State) (t : Option Word) : (s.setBt t).draws = s.draws := rfl
@[simp] theorem State.setBt_config (s : State) (t : Option Word) : (s.setBt t).config = s.config := rfl
@[simp] theorem State.setBt_reg (s : State) (t : Option Word) (q : Reg) : (s.setBt t).reg q = s.reg q := rfl

/-! ## setDmem -/

@[simp] theorem State.setDmem_regs (s : State) (m : Memory) : (s.setDmem m).regs = s.regs := rfl
@[simp] theorem State.setDmem_pc (s : State) (m : Memory) : (s.setDmem m).pc = s.pc := rfl
@[simp] theorem State.setDmem_ir (s : State) (m : Memory) : (s.setDmem m).ir = s.ir := rfl
@[simp] theorem State.setDmem_ie (s : State) (m : Memory) : (s.setDmem m).ie = s.ie := rfl
@[simp] theorem State.setDmem_bt (s : State) (m : Memory) : (s.setDmem m).bt = s.bt := rfl
@[simp] theorem State.setDmem_slot (s : State) (m : Memory) : (s.setDmem m).slot = s.slot := rfl
@[simp] theorem State.setDmem_pmem (s : State) (m : Memory) : (s.setDmem m).pmem = s.pmem := rfl
@[simp] theorem State.setDmem_dmem (s : State) (m : Memory) : (s.setDmem m).dmem = m := rfl
@[simp] theorem State.setDmem_inputs (s : State) (m : Memory) : (s.setDmem m).inputs = s.inputs := rfl
@[simp] theorem State.setDmem_outputs (s : State) (m : Memory) : (s.setDmem m).outputs = s.outputs := rfl
@[simp] theorem State.setDmem_draws (s : State) (m : Memory) : (s.setDmem m).draws = s.draws := rfl
@[simp] theorem State.setDmem_config (s : State) (m : Memory) : (s.setDmem m).config = s.config := rfl
@[simp] theorem State.setDmem_reg (s : State) (m : Memory) (q : Reg) : (s.setDmem m).reg q = s.reg q := rfl

/-! ## emit -/

@[simp] theorem State.emit_regs (s : State) (o : Output) : (s.emit o).regs = s.regs := rfl
@[simp] theorem State.emit_pc (s : State) (o : Output) : (s.emit o).pc = s.pc := rfl
@[simp] theorem State.emit_ir (s : State) (o : Output) : (s.emit o).ir = s.ir := rfl
@[simp] theorem State.emit_ie (s : State) (o : Output) : (s.emit o).ie = s.ie := rfl
@[simp] theorem State.emit_bt (s : State) (o : Output) : (s.emit o).bt = s.bt := rfl
@[simp] theorem State.emit_slot (s : State) (o : Output) : (s.emit o).slot = s.slot := rfl
@[simp] theorem State.emit_pmem (s : State) (o : Output) : (s.emit o).pmem = s.pmem := rfl
@[simp] theorem State.emit_dmem (s : State) (o : Output) : (s.emit o).dmem = s.dmem := rfl
@[simp] theorem State.emit_inputs (s : State) (o : Output) : (s.emit o).inputs = s.inputs := rfl
@[simp] theorem State.emit_outputs (s : State) (o : Output) : (s.emit o).outputs = s.outputs ++ [o] := rfl
@[simp] theorem State.emit_draws (s : State) (o : Output) : (s.emit o).draws = s.draws := rfl
@[simp] theorem State.emit_config (s : State) (o : Output) : (s.emit o).config = s.config := rfl
@[simp] theorem State.emit_reg (s : State) (o : Output) (q : Reg) : (s.emit o).reg q = s.reg q := rfl

/-! ## drawn -/

@[simp] theorem State.drawn_regs (s : State) : s.drawn.regs = s.regs := rfl
@[simp] theorem State.drawn_pc (s : State) : s.drawn.pc = s.pc := rfl
@[simp] theorem State.drawn_ir (s : State) : s.drawn.ir = s.ir := rfl
@[simp] theorem State.drawn_ie (s : State) : s.drawn.ie = s.ie := rfl
@[simp] theorem State.drawn_bt (s : State) : s.drawn.bt = s.bt := rfl
@[simp] theorem State.drawn_slot (s : State) : s.drawn.slot = s.slot := rfl
@[simp] theorem State.drawn_pmem (s : State) : s.drawn.pmem = s.pmem := rfl
@[simp] theorem State.drawn_dmem (s : State) : s.drawn.dmem = s.dmem := rfl
@[simp] theorem State.drawn_inputs (s : State) : s.drawn.inputs = s.inputs := rfl
@[simp] theorem State.drawn_outputs (s : State) : s.drawn.outputs = s.outputs := rfl
@[simp] theorem State.drawn_draws (s : State) : s.drawn.draws = s.draws + 1 := rfl
@[simp] theorem State.drawn_config (s : State) : s.drawn.config = s.config := rfl
@[simp] theorem State.drawn_reg (s : State) (q : Reg) : s.drawn.reg q = s.reg q := rfl

/-! ## sampled -/

@[simp] theorem State.sampled_regs (s : State) : s.sampled.regs = s.regs := rfl
@[simp] theorem State.sampled_pc (s : State) : s.sampled.pc = s.pc := rfl
@[simp] theorem State.sampled_ir (s : State) : s.sampled.ir = s.ir := rfl
@[simp] theorem State.sampled_ie (s : State) : s.sampled.ie = s.ie := rfl
@[simp] theorem State.sampled_bt (s : State) : s.sampled.bt = s.bt := rfl
@[simp] theorem State.sampled_slot (s : State) : s.sampled.slot = s.slot := rfl
@[simp] theorem State.sampled_pmem (s : State) : s.sampled.pmem = s.pmem := rfl
@[simp] theorem State.sampled_dmem (s : State) : s.sampled.dmem = s.dmem := rfl
@[simp] theorem State.sampled_inputs (s : State) : s.sampled.inputs = s.inputs.tail := rfl
@[simp] theorem State.sampled_outputs (s : State) : s.sampled.outputs = s.outputs := rfl
@[simp] theorem State.sampled_draws (s : State) : s.sampled.draws = s.draws := rfl
@[simp] theorem State.sampled_config (s : State) : s.sampled.config = s.config := rfl
@[simp] theorem State.sampled_reg (s : State) (q : Reg) : s.sampled.reg q = s.reg q := rfl

/-- Reading a register after a write: the written register has the value, every other one is as before. -/
theorem State.setReg_reg (s : State) (r : Reg) (v : Word) (q : Reg) :
    (s.setReg r v).reg q = if q = r then v else s.reg q := by
  unfold State.setReg State.reg
  rw [Vector.getElem_set]
  by_cases h : q = r
  · simp [h]
  · have : r.toNat ≠ q.toNat := fun h' => h (BitVec.eq_of_toNat_eq h'.symm)
    simp [h, this]

@[simp] theorem State.setReg_reg_same (s : State) (r : Reg) (v : Word) : (s.setReg r v).reg r = v := by
  simp [State.setReg_reg]

theorem State.setReg_reg_ne (s : State) {r q : Reg} (v : Word) (h : q ≠ r) : (s.setReg r v).reg q = s.reg q := by
  simp [State.setReg_reg, h]

/-- Two states that agree on every register hold the same register file. -/
theorem State.regs_eq_of_reg {s t : State} (h : ∀ r, s.reg r = t.reg r) : s.regs = t.regs := by
  apply Vector.ext
  intro k hk
  have := h (BitVec.ofNat 5 k)
  simpa [State.reg, Nat.mod_eq_of_lt hk] using this

/-! ## The instruction cycle's own updates -/

@[simp] theorem issue_regs (w : Word) (s : State) : (issue w s).regs = s.regs := rfl
@[simp] theorem issue_pc (w : Word) (s : State) : (issue w s).pc = s.pc + 4#32 := rfl
@[simp] theorem issue_ir (w : Word) (s : State) : (issue w s).ir = w := rfl
@[simp] theorem issue_ie (w : Word) (s : State) : (issue w s).ie = s.ie := rfl
@[simp] theorem issue_bt (w : Word) (s : State) : (issue w s).bt = none := rfl
@[simp] theorem issue_slot (w : Word) (s : State) : (issue w s).slot = s.bt := rfl
@[simp] theorem issue_pmem (w : Word) (s : State) : (issue w s).pmem = s.pmem := rfl
@[simp] theorem issue_dmem (w : Word) (s : State) : (issue w s).dmem = s.dmem := rfl
@[simp] theorem issue_inputs (w : Word) (s : State) : (issue w s).inputs = s.inputs := rfl
@[simp] theorem issue_outputs (w : Word) (s : State) : (issue w s).outputs = s.outputs := rfl
@[simp] theorem issue_draws (w : Word) (s : State) : (issue w s).draws = s.draws := rfl
@[simp] theorem issue_config (w : Word) (s : State) : (issue w s).config = s.config := rfl
@[simp] theorem issue_reg (w : Word) (s : State) (q : Reg) : (issue w s).reg q = s.reg q := rfl

@[simp] theorem resetEvent_pc (s : State) : (resetEvent s).pc = 0#32 := rfl
@[simp] theorem resetEvent_ie (s : State) : (resetEvent s).ie = false := rfl
@[simp] theorem resetEvent_bt (s : State) : (resetEvent s).bt = none := rfl
@[simp] theorem resetEvent_slot (s : State) : (resetEvent s).slot = none := rfl
@[simp] theorem resetEvent_pmem (s : State) : (resetEvent s).pmem = s.pmem := rfl
@[simp] theorem resetEvent_dmem (s : State) : (resetEvent s).dmem = s.dmem := rfl
@[simp] theorem resetEvent_inputs (s : State) : (resetEvent s).inputs = s.inputs := rfl
@[simp] theorem resetEvent_outputs (s : State) : (resetEvent s).outputs = s.outputs := rfl
@[simp] theorem resetEvent_draws (s : State) : (resetEvent s).draws = s.draws + 33 := rfl
@[simp] theorem resetEvent_config (s : State) : (resetEvent s).config = s.config := rfl

@[simp] theorem interruptEntry_pc (s : State) : (interruptEntry s).pc = intVector s.config := rfl
@[simp] theorem interruptEntry_ir (s : State) : (interruptEntry s).ir = s.ir := rfl
@[simp] theorem interruptEntry_ie (s : State) : (interruptEntry s).ie = false := rfl
@[simp] theorem interruptEntry_bt (s : State) : (interruptEntry s).bt = s.bt := rfl
@[simp] theorem interruptEntry_slot (s : State) : (interruptEntry s).slot = s.slot := rfl
@[simp] theorem interruptEntry_pmem (s : State) : (interruptEntry s).pmem = s.pmem := rfl
@[simp] theorem interruptEntry_dmem (s : State) : (interruptEntry s).dmem = s.dmem := rfl
@[simp] theorem interruptEntry_inputs (s : State) : (interruptEntry s).inputs = s.inputs := rfl
@[simp] theorem interruptEntry_outputs (s : State) : (interruptEntry s).outputs = s.outputs ++ [.iack] := rfl
@[simp] theorem interruptEntry_draws (s : State) : (interruptEntry s).draws = s.draws := rfl
@[simp] theorem interruptEntry_config (s : State) : (interruptEntry s).config = s.config := rfl

@[simp] theorem placeAtPc_regs (w : Word) (s : State) : (placeAtPc w s).regs = s.regs := rfl
@[simp] theorem placeAtPc_pc (w : Word) (s : State) : (placeAtPc w s).pc = s.pc := rfl
@[simp] theorem placeAtPc_ir (w : Word) (s : State) : (placeAtPc w s).ir = s.ir := rfl
@[simp] theorem placeAtPc_ie (w : Word) (s : State) : (placeAtPc w s).ie = s.ie := rfl
@[simp] theorem placeAtPc_bt (w : Word) (s : State) : (placeAtPc w s).bt = s.bt := rfl
@[simp] theorem placeAtPc_slot (w : Word) (s : State) : (placeAtPc w s).slot = s.slot := rfl
@[simp] theorem placeAtPc_pmem (w : Word) (s : State) : (placeAtPc w s).pmem = s.pmem.setWord (wordIndex s.pc) w := rfl
@[simp] theorem placeAtPc_dmem (w : Word) (s : State) : (placeAtPc w s).dmem = s.dmem := rfl
@[simp] theorem placeAtPc_inputs (w : Word) (s : State) : (placeAtPc w s).inputs = quietInputs s.inputs := rfl
@[simp] theorem placeAtPc_outputs (w : Word) (s : State) : (placeAtPc w s).outputs = s.outputs := rfl
@[simp] theorem placeAtPc_draws (w : Word) (s : State) : (placeAtPc w s).draws = s.draws := rfl
@[simp] theorem placeAtPc_config (w : Word) (s : State) : (placeAtPc w s).config = s.config := rfl
@[simp] theorem placeAtPc_reg (w : Word) (s : State) (q : Reg) : (placeAtPc w s).reg q = s.reg q := rfl

theorem interruptEntry_reg (s : State) (q : Reg) :
    (interruptEntry s).reg q = if q = ipc then s.pc else s.reg q := by
  simpa [interruptEntry] using State.setReg_reg s ipc s.pc q

theorem retire_none {s : State} (h : s.slot = none) : retire s = s := by
  simp [retire, h]

theorem retire_some {s : State} {t : Word} (h : s.slot = some t) : retire s = { s with pc := t, slot := none } := by
  simp [retire, h]

@[simp] theorem retire_regs (s : State) : (retire s).regs = s.regs := by unfold retire; split <;> rfl
@[simp] theorem retire_ir (s : State) : (retire s).ir = s.ir := by unfold retire; split <;> rfl
@[simp] theorem retire_ie (s : State) : (retire s).ie = s.ie := by unfold retire; split <;> rfl
@[simp] theorem retire_bt (s : State) : (retire s).bt = s.bt := by unfold retire; split <;> rfl
@[simp] theorem retire_pmem (s : State) : (retire s).pmem = s.pmem := by unfold retire; split <;> rfl
@[simp] theorem retire_dmem (s : State) : (retire s).dmem = s.dmem := by unfold retire; split <;> rfl
@[simp] theorem retire_inputs (s : State) : (retire s).inputs = s.inputs := by unfold retire; split <;> rfl
@[simp] theorem retire_outputs (s : State) : (retire s).outputs = s.outputs := by unfold retire; split <;> rfl
@[simp] theorem retire_draws (s : State) : (retire s).draws = s.draws := by unfold retire; split <;> rfl
@[simp] theorem retire_config (s : State) : (retire s).config = s.config := by unfold retire; split <;> rfl
@[simp] theorem retire_slot (s : State) : (retire s).slot = none := by
  unfold retire; split <;> simp_all
@[simp] theorem retire_reg (s : State) (q : Reg) : (retire s).reg q = s.reg q := by unfold retire; split <;> rfl
theorem retire_pc (s : State) : (retire s).pc = s.slot.getD s.pc := by
  unfold retire; split <;> simp_all

end Sys2Proof.Machine
end

