-- ==== Sys2Proof/Laws/Ops.lean ====
section
/-! SUPPORT. One lemma for each shared operation that says everything it can do; callers cite it and do not unfold
the operation. -/

namespace Sys2Proof.Machine

/-! ## Data accesses -/

/-- A load that completes has drawn a device's value, or read the word. -/
theorem loadWord_next {ra : Reg} {ea : Word} {s t : State} (h : loadWord ra ea s = .next t) :
    misalignedDataRefused s.config ea = false ∧ implemented s.config.dmemRange (wordIndex ea) = true ∧
      ((implemented s.config.deviceRange (wordIndex ea) = true ∧ t = s.drawn.setReg ra s.fresh) ∨
        (implemented s.config.deviceRange (wordIndex ea) = false ∧ t = s.setReg ra (s.dmem.word (wordIndex ea)))) := by
  unfold loadWord at h
  split at h
  · cases h
  · split at h
    · cases h
    · split at h <;> cases h <;> simp_all

/-- A store that completes has handed the word to a device, or written it. -/
theorem storeWord_next {ea v : Word} {s t : State} (h : storeWord ea v s = .next t) :
    misalignedDataRefused s.config ea = false ∧ implemented s.config.dmemRange (wordIndex ea) = true ∧
      ((implemented s.config.deviceRange (wordIndex ea) = true ∧ t = s.emit (.deviceWrite (wordIndex ea) v)) ∨
        (implemented s.config.deviceRange (wordIndex ea) = false ∧
          t = s.setDmem (s.dmem.setWord (wordIndex ea) v))) := by
  unfold storeWord at h
  split at h
  · cases h
  · split at h
    · cases h
    · split at h <;> cases h <;> simp_all

theorem misalignedDataRefused_of_plain {s : State} {ea : Word} (h : PlainData s ea) :
    misalignedDataRefused s.config ea = false := by
  unfold misalignedDataRefused
  by_cases hc : s.config.misalignedData = .refuse <;> simp [hc, h.accepted]

/-- A load from plain memory completes with the word. -/
theorem loadWord_of_plain (ra : Reg) {ea : Word} {s : State} (h : PlainData s ea) :
    loadWord ra ea s = .next (s.setReg ra (s.dmem.word (wordIndex ea))) := by
  simp [loadWord, misalignedDataRefused_of_plain h, h.present, h.plain]

/-- A store to plain memory completes with the word written. -/
theorem storeWord_of_plain {ea : Word} (v : Word) {s : State} (h : PlainData s ea) :
    storeWord ea v s = .next (s.setDmem (s.dmem.setWord (wordIndex ea) v)) := by
  simp [storeWord, misalignedDataRefused_of_plain h, h.present, h.plain]

/-! ## Frames -/

theorem onlyRegChanged_setReg (s : State) (ra : Reg) (v : Word) : OnlyRegChanged ra s (s.setReg ra v) :=
  ⟨fun _ h => State.setReg_reg_ne s v h,
    ⟨rfl, rfl, rfl, rfl, rfl, fun _ => rfl, fun _ => rfl, rfl, rfl, rfl, rfl⟩⟩

/-- An instruction whose meaning is one register write completes with it. -/
theorem writes_of_writeReg {i : Instr} {s : State} {ra : Reg} {v : Word} (h : exec i s = writeReg ra v s) :
    Writes i s ra v :=
  ⟨s.setReg ra v, h, State.setReg_reg_same s ra v, onlyRegChanged_setReg s ra v⟩

/-! ## Control transfer -/

theorem isAligned_addressOf (i : WordIndex) : isAligned (addressOf i) = true := by
  simp only [isAligned, addressOf, beq_iff_eq]
  apply BitVec.eq_of_getLsbD_eq
  intro k hk
  rw [BitVec.getLsbD_extractLsb', BitVec.getLsbD_append]
  simp [hk]

theorem targetOf_aligned {c : Config} {t : Word} (h : isAligned t = true) : targetOf c t = some t := by
  simp [targetOf, h]

/-- An accepted target is one an instruction can be fetched from. -/
theorem targetOf_some {c : Config} {t a : Word} (h : targetOf c t = some a) : AlignedUnlessKept c a := by
  unfold targetOf at h
  split at h
  · next ha => cases h; exact .inr ha
  · split at h
    · cases h
    · cases h; exact .inr (isAligned_addressOf _)
    · next hk => exact .inl hk

theorem delayedBranch_next {t : Word} {s s' : State} (h : delayedBranch t s = .next s') :
    s.slot = none ∧ ∃ a, targetOf s.config t = some a ∧ s' = s.setBt (some a) := by
  unfold delayedBranch at h
  split at h
  · cases h
  · next hs =>
    split at h
    · cases h
    · next a ha => cases h; exact ⟨by simpa using hs, a, ha, rfl⟩

theorem interruptReturn_next {s t : State} (h : interruptReturn s = .next t) :
    s.slot = none ∧ ∃ a, targetOf s.config (s.reg ipc) = some a ∧ t = (s.setPc a).setIe true := by
  unfold interruptReturn at h
  split at h
  · cases h
  · next hs =>
    split at h
    · cases h
    · next a ha => cases h; exact ⟨by simpa using hs, a, ha, rfl⟩

/-! ## The boundary, the fetch and the end of the cycle -/

theorem boundary_quiet {s : State} (hr : s.pins.rst = false) (hi : (s.ie && s.pins.ireq) = false) :
    boundary s = .run := by
  simp [boundary, hr, hi]

theorem boundary_of_quiet {s : State} (h : Quiet s) : boundary s = .run :=
  boundary_quiet h.1 (by rcases h.2 with h | h <;> simp [h])

theorem boundary_entry {s : State} (h : boundary s = .entry) :
    s.pins.rst = false ∧ s.ie = true ∧ s.pins.ireq = true ∧ s.bt = none := by
  unfold boundary at h
  split at h
  · cases h
  · next hr =>
    split at h
    · next hi =>
      rw [Bool.and_eq_true] at hi
      cases hb : s.bt with
      | none => exact ⟨by simpa using hr, hi.1, hi.2, rfl⟩
      | some t => cases hc : s.config.irqInDelaySlot <;> simp [hb, hc] at h
    · cases h

theorem boundary_reset {s : State} (h : boundary s = .reset) : s.pins.rst = true := by
  unfold boundary at h
  split at h
  · next hr => exact hr
  · split at h
    · split at h <;> cases h
    · cases h

theorem fetch_word {s : State} {w : Word} (h : fetch s = .word w) :
    implemented s.config.pmemRange (wordIndex s.pc) = true ∧ w = s.pmem.word (wordIndex s.pc) := by
  unfold fetch at h
  split at h
  · cases h
  · split at h
    · next hp => cases h; exact ⟨hp, rfl⟩
    · cases h

/-- A word is fetched exactly where PC may be fetched from and holds it. -/
theorem fetches_of_fetch {s : State} {w : Word} (h : fetch s = .word w) : Fetches s w := by
  refine ⟨?_, (fetch_word h).1, (fetch_word h).2.symm⟩
  unfold fetch at h
  split at h
  · cases h
  · next hh =>
    unfold AlignedUnlessKept
    cases ha : isAligned s.pc <;> cases hc : s.config.misalignedPc <;> simp [ha, hc] at hh ⊢

theorem fetch_of_fetches {s : State} {w : Word} (h : Fetches s w) : fetch s = .word w := by
  have hm : (!isAligned s.pc && s.config.misalignedPc != .keepBits) = false := by
    rcases h.aligned with ha | ha <;> simp [ha]
  simp [fetch, hm, h.present, h.word]

theorem retireOutcome_next {o : Host.Outcome State Fault Refusal} {t : State} (h : retireOutcome o = .next t) :
    ∃ u, o = .next u ∧ t = retire u := by
  cases o <;> cases h
  exact ⟨_, rfl, rfl⟩

/-- What a step that goes on can be: the reset event, an interrupt entry, or one instruction. -/
theorem step_cases {s t : State} (h : step s = .next t) :
    (boundary s = .reset ∧ t = resetEvent s.sampled) ∨
    (boundary s = .entry ∧ t = interruptEntry s.sampled) ∨
    (boundary s = .run ∧ ∃ w i u, fetch s.sampled = .word w ∧ decodeWord s.config w = .instr i ∧
      exec i (issue w s.sampled) = .next u ∧ t = retire u) := by
  unfold step at h
  split at h
  · next hb => exact .inl ⟨hb, (Host.Outcome.next.inj h).symm⟩
  · next hb => exact .inr (.inl ⟨hb, (Host.Outcome.next.inj h).symm⟩)
  · cases h
  · next hb =>
    refine .inr (.inr ⟨hb, ?_⟩)
    unfold runInstr at h
    split at h
    · cases h
    · cases h
    · next w hw =>
      split at h
      · cases h
      · next i hi =>
        obtain ⟨u, hu, rfl⟩ := retireOutcome_next h
        exact ⟨w, i, u, hw, hi, hu, rfl⟩

end Sys2Proof.Machine
end

