-- ==== Sys2Proof/Laws/Exec.lean ====
section
/-! SUPPORT. Everything an instruction can do to the state, said once: whole-machine statements are proved by cases
on `Effect`, not by unfolding the 35 meanings. -/

namespace Sys2Proof.Machine

/-- The next states of an instruction. -/
inductive Effect (i : Instr) (s : State) : State → Prop
  | nothing : Effect i s s
  | reg (ra : Reg) (v : Word) : writtenReg i = some ra → Effect i s (s.setReg ra v)
  | deviceRead (ra : Reg) (ea : Word) : writtenReg i = some ra → loadAddress s i = some ea →
      Effect i s (s.drawn.setReg ra s.fresh)
  | branch (a : Word) : s.slot = none → AlignedUnlessKept s.config a → Effect i s (s.setBt (some a))
  | linkBranch (ra : Reg) (a : Word) : writtenReg i = some ra → s.slot = none → AlignedUnlessKept s.config a →
      Effect i s ((s.setReg ra s.pc).setBt (some a))
  | store (ea v : Word) : storeAddress s i = some ea → Effect i s (s.setDmem (s.dmem.setWord (wordIndex ea) v))
  | deviceStore (ea v : Word) : storeAddress s i = some ea → Effect i s (s.emit (.deviceWrite (wordIndex ea) v))
  | enable : i = .ien → Effect i s (s.setIe true)
  | disable : i = .ids → Effect i s (s.setIe false)
  | ret (a : Word) : i = .rfi → s.slot = none → AlignedUnlessKept s.config a → Effect i s ((s.setPc a).setIe true)

theorem Effect.of_writeReg {i : Instr} {s t : State} {ra : Reg} {v : Word} (hw : writtenReg i = some ra)
    (h : writeReg ra v s = .next t) : Effect i s t := by
  cases h
  exact .reg ra v hw

theorem Effect.of_loadWord {i : Instr} {s t : State} {ra : Reg} {ea : Word} (hw : writtenReg i = some ra)
    (hl : loadAddress s i = some ea) (h : loadWord ra ea s = .next t) : Effect i s t := by
  obtain ⟨-, -, ⟨-, rfl⟩ | ⟨-, rfl⟩⟩ := loadWord_next h
  · exact .deviceRead ra ea hw hl
  · exact .reg ra _ hw

theorem Effect.of_storeWord {i : Instr} {s t : State} {ea v : Word} (hs : storeAddress s i = some ea)
    (h : storeWord ea v s = .next t) : Effect i s t := by
  obtain ⟨-, -, ⟨-, rfl⟩ | ⟨-, rfl⟩⟩ := storeWord_next h
  · exact .deviceStore ea v hs
  · exact .store ea v hs

theorem Effect.of_delayedBranch {i : Instr} {s t : State} {a : Word} (h : delayedBranch a s = .next t) :
    Effect i s t := by
  obtain ⟨hs, b, hb, rfl⟩ := delayedBranch_next h
  exact .branch b hs (targetOf_some hb)

theorem Effect.of_linkedBranch {i : Instr} {s t : State} {ra : Reg} {a : Word} (hw : writtenReg i = some ra)
    (h : delayedBranch a (s.setReg ra s.pc) = .next t) : Effect i s t := by
  obtain ⟨hs, b, hb, rfl⟩ := delayedBranch_next h
  exact .linkBranch ra b hw hs (targetOf_some hb)

theorem Effect.of_linkAndBranch {i : Instr} {old s t : State} {ra rb rc : Reg} {cond : Cond}
    (hw : writtenReg i = some ra) (h : linkAndBranch old ra rb rc cond s = .next t) : Effect i s t := by
  unfold linkAndBranch at h
  split at h
  · cases h
  · cases h; exact .reg ra s.pc hw
  · exact .of_linkedBranch hw h

theorem Effect.of_brl {s t : State} {ra rb rc : Reg} {cond : Cond} (h : execBrl ra rb rc cond s = .next t) :
    Effect (.brl ra rb rc cond) s t := by
  unfold execBrl at h
  split at h
  · split at h
    · cases h
    · exact .of_linkAndBranch rfl h
    · exact .of_linkAndBranch rfl h
  · exact .of_linkAndBranch rfl h

theorem Effect.of_br {s t : State} {rb rc : Reg} {cond : Cond} (h : execBr rb rc cond s = .next t) :
    Effect (.br rb rc cond) s t := by
  unfold execBr at h
  split at h
  · cases h
  · cases h; exact .nothing
  · exact .of_delayedBranch h

theorem Effect.of_rfi {s t : State} (h : execRfi s = .next t) : Effect .rfi s t := by
  obtain ⟨hs, a, ha, rfl⟩ := interruptReturn_next h
  exact .ret a rfl hs (targetOf_some ha)

/-- An instruction that completes has one of these effects. -/
theorem exec_effect {i : Instr} {s t : State} (h : exec i s = .next t) : Effect i s t := by
  cases i with
  | br => exact .of_br h
  | brl => exact .of_brl h
  | j => exact .of_delayedBranch h
  | jl => exact .of_linkedBranch rfl h
  | ld => exact .of_loadWord rfl rfl h
  | ldr => exact .of_loadWord rfl rfl h
  | st => exact .of_storeWord rfl h
  | str => exact .of_storeWord rfl h
  | ien => cases h; exact .enable rfl
  | ids => cases h; exact .disable rfl
  | rfi => exact .of_rfi h
  | _ => exact .of_writeReg rfl h

/-! ## What no instruction changes, and what only a few do -/

theorem Effect.pmem {i : Instr} {s t : State} (h : Effect i s t) : t.pmem = s.pmem := by cases h <;> rfl
theorem Effect.slot {i : Instr} {s t : State} (h : Effect i s t) : t.slot = s.slot := by cases h <;> rfl
theorem Effect.config {i : Instr} {s t : State} (h : Effect i s t) : t.config = s.config := by cases h <;> rfl
theorem Effect.ir {i : Instr} {s t : State} (h : Effect i s t) : t.ir = s.ir := by cases h <;> rfl

/-- A load is `loadWord` at its address. -/
theorem exec_load {i : Instr} {s : State} {ea : Word} (h : loadAddress s i = some ea) :
    ∃ ra, writtenReg i = some ra ∧ exec i s = loadWord ra ea s := by
  cases i <;> cases h <;> exact ⟨_, rfl, rfl⟩

/-- A store is `storeWord` at its address. -/
theorem exec_store {i : Instr} {s : State} {ea : Word} (h : storeAddress s i = some ea) :
    ∃ v, exec i s = storeWord ea v s := by
  cases i <;> cases h <;> exact ⟨_, rfl⟩

end Sys2Proof.Machine
end

