-- ==== Sys2Proof/Laws/PerInstr.lean ====
section
/-! SUPPORT. The family EncodeRow: every constructor is encoded with the opcode, and for a shift the i bit, of
its own row of the opcode table (30_encoding R106). -/

namespace Sys2Proof.Laws

/-- The opcode of the constructor's row, bits 31..27 (R106). -/
def opcodeOf : Instr → BitVec 5
  | .addi _ _ _ => 0#5
  | .addi2 _ _ _ => 1#5
  | .ori _ _ _ => 2#5
  | .ori2 _ _ _ => 3#5
  | .andi _ _ _ => 4#5
  | .andi2 _ _ _ => 5#5
  | .movi _ _ => 6#5
  | .movi2 _ _ => 7#5
  | .add _ _ _ => 8#5
  | .sub _ _ _ => 9#5
  | .not _ _ => 10#5
  | .neg _ _ => 11#5
  | .or _ _ _ => 12#5
  | .and _ _ _ => 13#5
  | .xor _ _ _ => 14#5
  | .asr _ _ _ | .asrR _ _ _ => 15#5
  | .lsr _ _ _ | .lsrR _ _ _ => 16#5
  | .shl _ _ _ | .shlR _ _ _ => 17#5
  | .ror _ _ _ | .rorR _ _ _ => 18#5
  | .br _ _ _ => 19#5
  | .brl _ _ _ _ => 20#5
  | .j _ => 21#5
  | .jl _ _ => 22#5
  | .ld _ _ _ => 23#5
  | .ldr _ _ => 24#5
  | .st _ _ _ => 25#5
  | .str _ _ => 26#5
  | .lea _ _ => 27#5
  | .ien => 29#5
  | .ids => 30#5
  | .rfi => 31#5

/-- The i bit that the mask 0xF8000020 of a shift's row fixes (R96, R106). -/
def shiftBitOf : Instr → Option (BitVec 1)
  | .asr _ _ _ | .lsr _ _ _ | .shl _ _ _ | .ror _ _ _ => some 0#1
  | .asrR _ _ _ | .lsrR _ _ _ | .shlR _ _ _ | .rorR _ _ _ => some 1#1
  | _ => none

def EncodeRow.Statement (i : Instr) : Prop :=
  ∀ c, opOf (encode c i) = opcodeOf i ∧ ∀ b, shiftBitOf i = some b → iOf (encode c i) = b

theorem opOf_encodeI1 (op ra rb imm17) : opOf (encodeI1 op ra rb imm17) = op := by
  simp [opOf, encodeI1, field_or, field_place_same, field_place_apart]

theorem opOf_encodeI2 (c op ra rb t) : opOf (encodeI2 c op ra rb t) = op := by
  simp [opOf, encodeI2, field_or, field_place_same, field_place_apart, field_encodeType2_apart]

theorem opOf_encodeR3 (op ra rb rc) : opOf (encodeR3 op ra rb rc) = op := by
  simp [opOf, encodeR3, field_or, field_place_same, field_place_apart]

theorem opOf_encodeSH (op ra rb rc i shamt) : opOf (encodeSH op ra rb rc i shamt) = op := by
  simp [opOf, encodeSH, field_or, field_place_same, field_place_apart]

theorem iOf_encodeSH (op ra rb rc i shamt) : iOf (encodeSH op ra rb rc i shamt) = i := by
  simp [iOf, encodeSH, field_or, field_place_same, field_place_apart]

theorem opOf_encodeBL (op ra rb rc cond) : opOf (encodeBL op ra rb rc cond) = op := by
  simp [opOf, encodeBL, field_or, field_place_same, field_place_apart]

theorem opOf_encodeJR (op ra imm22) : opOf (encodeJR op ra imm22) = op := by
  simp [opOf, encodeJR, field_or, field_place_same, field_place_apart]

/-- A row with no i bit to check. -/
theorem encodeRow_of_op {i : Instr} (h : ∀ c, opOf (encode c i) = opcodeOf i) (hb : shiftBitOf i = none) :
    EncodeRow.Statement i := fun c => ⟨h c, by simp [hb]⟩

theorem EncodeRow.addi (ra rb : Reg) (imm17 : BitVec 17) : EncodeRow.Statement (.addi ra rb imm17) :=
  encodeRow_of_op (fun _ => opOf_encodeI1 _ _ _ _) rfl

theorem EncodeRow.addi2 (ra rb : Reg) (op2 : Type2) : EncodeRow.Statement (.addi2 ra rb op2) :=
  encodeRow_of_op (fun _ => opOf_encodeI2 _ _ _ _ _) rfl

theorem EncodeRow.ori (ra rb : Reg) (imm17 : BitVec 17) : EncodeRow.Statement (.ori ra rb imm17) :=
  encodeRow_of_op (fun _ => opOf_encodeI1 _ _ _ _) rfl

theorem EncodeRow.ori2 (ra rb : Reg) (op2 : Type2) : EncodeRow.Statement (.ori2 ra rb op2) :=
  encodeRow_of_op (fun _ => opOf_encodeI2 _ _ _ _ _) rfl

theorem EncodeRow.andi (ra rb : Reg) (imm17 : BitVec 17) : EncodeRow.Statement (.andi ra rb imm17) :=
  encodeRow_of_op (fun _ => opOf_encodeI1 _ _ _ _) rfl

theorem EncodeRow.andi2 (ra rb : Reg) (op2 : Type2) : EncodeRow.Statement (.andi2 ra rb op2) :=
  encodeRow_of_op (fun _ => opOf_encodeI2 _ _ _ _ _) rfl

theorem EncodeRow.movi (ra : Reg) (imm17 : BitVec 17) : EncodeRow.Statement (.movi ra imm17) :=
  encodeRow_of_op (fun _ => opOf_encodeI1 _ _ _ _) rfl

theorem EncodeRow.movi2 (ra : Reg) (op2 : Type2) : EncodeRow.Statement (.movi2 ra op2) :=
  encodeRow_of_op (fun _ => opOf_encodeI2 _ _ _ _ _) rfl

theorem EncodeRow.add (ra rb rc : Reg) : EncodeRow.Statement (.add ra rb rc) :=
  encodeRow_of_op (fun _ => opOf_encodeR3 _ _ _ _) rfl

theorem EncodeRow.sub (ra rb rc : Reg) : EncodeRow.Statement (.sub ra rb rc) :=
  encodeRow_of_op (fun _ => opOf_encodeR3 _ _ _ _) rfl

theorem EncodeRow.not (ra rc : Reg) : EncodeRow.Statement (.not ra rc) :=
  encodeRow_of_op (fun _ => opOf_encodeR3 _ _ _ _) rfl

theorem EncodeRow.neg (ra rc : Reg) : EncodeRow.Statement (.neg ra rc) :=
  encodeRow_of_op (fun _ => opOf_encodeR3 _ _ _ _) rfl

theorem EncodeRow.or (ra rb rc : Reg) : EncodeRow.Statement (.or ra rb rc) :=
  encodeRow_of_op (fun _ => opOf_encodeR3 _ _ _ _) rfl

theorem EncodeRow.and (ra rb rc : Reg) : EncodeRow.Statement (.and ra rb rc) :=
  encodeRow_of_op (fun _ => opOf_encodeR3 _ _ _ _) rfl

theorem EncodeRow.xor (ra rb rc : Reg) : EncodeRow.Statement (.xor ra rb rc) :=
  encodeRow_of_op (fun _ => opOf_encodeR3 _ _ _ _) rfl

theorem EncodeRow.asr (ra rb : Reg) (shamt : BitVec 5) : EncodeRow.Statement (.asr ra rb shamt) := fun _ =>
  ⟨opOf_encodeSH _ _ _ _ _ _, fun _ h => by cases h; exact iOf_encodeSH _ _ _ _ _ _⟩

theorem EncodeRow.asrR (ra rb rc : Reg) : EncodeRow.Statement (.asrR ra rb rc) := fun _ =>
  ⟨opOf_encodeSH _ _ _ _ _ _, fun _ h => by cases h; exact iOf_encodeSH _ _ _ _ _ _⟩

theorem EncodeRow.lsr (ra rb : Reg) (shamt : BitVec 5) : EncodeRow.Statement (.lsr ra rb shamt) := fun _ =>
  ⟨opOf_encodeSH _ _ _ _ _ _, fun _ h => by cases h; exact iOf_encodeSH _ _ _ _ _ _⟩

theorem EncodeRow.lsrR (ra rb rc : Reg) : EncodeRow.Statement (.lsrR ra rb rc) := fun _ =>
  ⟨opOf_encodeSH _ _ _ _ _ _, fun _ h => by cases h; exact iOf_encodeSH _ _ _ _ _ _⟩

theorem EncodeRow.shl (ra rb : Reg) (shamt : BitVec 5) : EncodeRow.Statement (.shl ra rb shamt) := fun _ =>
  ⟨opOf_encodeSH _ _ _ _ _ _, fun _ h => by cases h; exact iOf_encodeSH _ _ _ _ _ _⟩

theorem EncodeRow.shlR (ra rb rc : Reg) : EncodeRow.Statement (.shlR ra rb rc) := fun _ =>
  ⟨opOf_encodeSH _ _ _ _ _ _, fun _ h => by cases h; exact iOf_encodeSH _ _ _ _ _ _⟩

theorem EncodeRow.ror (ra rb : Reg) (shamt : BitVec 5) : EncodeRow.Statement (.ror ra rb shamt) := fun _ =>
  ⟨opOf_encodeSH _ _ _ _ _ _, fun _ h => by cases h; exact iOf_encodeSH _ _ _ _ _ _⟩

theorem EncodeRow.rorR (ra rb rc : Reg) : EncodeRow.Statement (.rorR ra rb rc) := fun _ =>
  ⟨opOf_encodeSH _ _ _ _ _ _, fun _ h => by cases h; exact iOf_encodeSH _ _ _ _ _ _⟩

theorem EncodeRow.br (rb rc : Reg) (cond : Cond) : EncodeRow.Statement (.br rb rc cond) :=
  encodeRow_of_op (fun _ => opOf_encodeBL _ _ _ _ _) rfl

theorem EncodeRow.brl (ra rb rc : Reg) (cond : Cond) : EncodeRow.Statement (.brl ra rb rc cond) :=
  encodeRow_of_op (fun _ => opOf_encodeBL _ _ _ _ _) rfl

theorem EncodeRow.j (imm22 : BitVec 22) : EncodeRow.Statement (.j imm22) :=
  encodeRow_of_op (fun _ => opOf_encodeJR _ _ _) rfl

theorem EncodeRow.jl (ra : Reg) (imm22 : BitVec 22) : EncodeRow.Statement (.jl ra imm22) :=
  encodeRow_of_op (fun _ => opOf_encodeJR _ _ _) rfl

theorem EncodeRow.ld (ra rb : Reg) (imm17 : BitVec 17) : EncodeRow.Statement (.ld ra rb imm17) :=
  encodeRow_of_op (fun _ => opOf_encodeI1 _ _ _ _) rfl

theorem EncodeRow.ldr (ra : Reg) (imm22 : BitVec 22) : EncodeRow.Statement (.ldr ra imm22) :=
  encodeRow_of_op (fun _ => opOf_encodeJR _ _ _) rfl

theorem EncodeRow.st (ra rb : Reg) (imm17 : BitVec 17) : EncodeRow.Statement (.st ra rb imm17) :=
  encodeRow_of_op (fun _ => opOf_encodeI1 _ _ _ _) rfl

theorem EncodeRow.str (ra : Reg) (imm22 : BitVec 22) : EncodeRow.Statement (.str ra imm22) :=
  encodeRow_of_op (fun _ => opOf_encodeJR _ _ _) rfl

theorem EncodeRow.lea (ra : Reg) (imm22 : BitVec 22) : EncodeRow.Statement (.lea ra imm22) :=
  encodeRow_of_op (fun _ => opOf_encodeJR _ _ _) rfl

theorem EncodeRow.ien : EncodeRow.Statement .ien := encodeRow_of_op (fun _ => field_place_same _ _ (by omega)) rfl

theorem EncodeRow.ids : EncodeRow.Statement .ids := encodeRow_of_op (fun _ => field_place_same _ _ (by omega)) rfl

theorem EncodeRow.rfi : EncodeRow.Statement .rfi := encodeRow_of_op (fun _ => field_place_same _ _ (by omega)) rfl

/-- The opcode of every encoded instruction is its row's. -/
theorem opOf_encode (c : Config) : (i : Instr) → opOf (encode c i) = opcodeOf i
  | .addi ra rb imm17 => (EncodeRow.addi ra rb imm17 c).1
  | .addi2 ra rb op2 => (EncodeRow.addi2 ra rb op2 c).1
  | .ori ra rb imm17 => (EncodeRow.ori ra rb imm17 c).1
  | .ori2 ra rb op2 => (EncodeRow.ori2 ra rb op2 c).1
  | .andi ra rb imm17 => (EncodeRow.andi ra rb imm17 c).1
  | .andi2 ra rb op2 => (EncodeRow.andi2 ra rb op2 c).1
  | .movi ra imm17 => (EncodeRow.movi ra imm17 c).1
  | .movi2 ra op2 => (EncodeRow.movi2 ra op2 c).1
  | .add ra rb rc => (EncodeRow.add ra rb rc c).1
  | .sub ra rb rc => (EncodeRow.sub ra rb rc c).1
  | .not ra rc => (EncodeRow.not ra rc c).1
  | .neg ra rc => (EncodeRow.neg ra rc c).1
  | .or ra rb rc => (EncodeRow.or ra rb rc c).1
  | .and ra rb rc => (EncodeRow.and ra rb rc c).1
  | .xor ra rb rc => (EncodeRow.xor ra rb rc c).1
  | .asr ra rb shamt => (EncodeRow.asr ra rb shamt c).1
  | .asrR ra rb rc => (EncodeRow.asrR ra rb rc c).1
  | .lsr ra rb shamt => (EncodeRow.lsr ra rb shamt c).1
  | .lsrR ra rb rc => (EncodeRow.lsrR ra rb rc c).1
  | .shl ra rb shamt => (EncodeRow.shl ra rb shamt c).1
  | .shlR ra rb rc => (EncodeRow.shlR ra rb rc c).1
  | .ror ra rb shamt => (EncodeRow.ror ra rb shamt c).1
  | .rorR ra rb rc => (EncodeRow.rorR ra rb rc c).1
  | .br rb rc cond => (EncodeRow.br rb rc cond c).1
  | .brl ra rb rc cond => (EncodeRow.brl ra rb rc cond c).1
  | .j imm22 => (EncodeRow.j imm22 c).1
  | .jl ra imm22 => (EncodeRow.jl ra imm22 c).1
  | .ld ra rb imm17 => (EncodeRow.ld ra rb imm17 c).1
  | .ldr ra imm22 => (EncodeRow.ldr ra imm22 c).1
  | .st ra rb imm17 => (EncodeRow.st ra rb imm17 c).1
  | .str ra imm22 => (EncodeRow.str ra imm22 c).1
  | .lea ra imm22 => (EncodeRow.lea ra imm22 c).1
  | .ien => (EncodeRow.ien c).1
  | .ids => (EncodeRow.ids c).1
  | .rfi => (EncodeRow.rfi c).1

end Sys2Proof.Laws
end

