-- ==== Sys2Proof/Tests/Slice0.lean ====
section
/-! SUPPORT. The model's own tests. Words and results are those of 95_test_vectors sections 1 and 2 (words written out by
fields from 30_encoding), or computed by hand from the rule named; a `witness_` theorem shows a concrete state and
operands that meet the hypotheses of the obligation it is named after. -/

namespace Sys2Proof.Tests

open Sys2Proof Sys2Proof.Machine

/-! ## Helpers -/

/-- A field of the next state, none where the step stops. -/
def result {α : Type} (s : State) (f : State → α) : Option α :=
  match step s with
  | .next t => some (f t)
  | .fault _ | .refused _ => none

/-- Why the step stops. -/
def refusal (s : State) : Option Refusal :=
  match step s with
  | .refused r => some r
  | .next _ | .fault _ => none

def faultOf (s : State) : Option Fault :=
  match step s with
  | .fault f => some f
  | .next _ | .refused _ => none

def completes : Host.Outcome State Fault Refusal → Bool
  | .next _ => true
  | .fault _ | .refused _ => false

def after : Host.Outcome State Fault Refusal → State
  | .next t => t
  | .fault _ | .refused _ => State.reset

theorem next_after {o : Host.Outcome State Fault Refusal} (h : completes o = true) : o = .next (after o) := by
  cases o <;> first | rfl | cases h

/-- The reset machine with these registers and data words, about to execute the word at 0x100. -/
def at100 (w : Nat) (regs : List (Reg × Word)) (data : List (Word × Word)) : State :=
  let s := regs.foldl (fun s p => s.setReg p.1 p.2) { State.reset with pc := 0x100#32 }
  let s := data.foldl (fun s p => s.setDmem (s.dmem.setWord (wordIndex p.1) p.2)) s
  s.withFetchWord 32 w

/-- The same state, executing the instruction at 0x100: PC holds currentPC. -/
def executing (regs : List (Reg × Word)) : State :=
  regs.foldl (fun s p => s.setReg p.1 p.2) { State.reset with pc := 0x104#32 }

def noVector : Config := { Config.decided with intVector := 0x20#30 }
def strictUnused : Config := { noVector with unusedBits := .refuse }
def condNotTaken : Config := { noVector with reservedCond := .notTaken }
def strictData : Config := { noVector with misalignedData := .refuse }
def clearing : Config := { noVector with misalignedPc := .clearBits }
def keeping : Config := { noVector with misalignedPc := .keepBits }
def oldReading : Config := { noVector with brlOverlap := .oldValues }
def newReading : Config := { noVector with brlOverlap := .newValues }
def holding : Config := { noVector with irqInDelaySlot := .hold }
/-- Words 0 .. 0xFF of program memory and 0 .. 0x1FF of data memory exist; data words 0x100 .. 0x1FF are a device. -/
def small : Config := { noVector with pmemRange := [⟨0, 0x100⟩], dmemRange := [⟨0, 0x200⟩], deviceRange := [⟨0x100, 0x100⟩] }

def withConfig (s : State) (c : Config) : State := { s with config := c }

/-! ## WellFormed refuses an ill-formed term for each check -/

theorem test_wellFormed_reserved_cond : Instr.wellFormed Config.decided (.br 1#5 2#5 .reserved6) = false ∧
    Instr.wellFormed Config.decided (.brl 3#5 1#5 2#5 .reserved7) = false := by decide

theorem test_wellFormed_unread_rc : Instr.wellFormed Config.decided (.br 1#5 2#5 .al) = false ∧
    Instr.wellFormed Config.decided (.brl 3#5 1#5 2#5 .nv) = false := by decide

theorem test_wellFormed_unread_rb : Instr.wellFormed Config.decided (.br 1#5 0#5 .nv) = false := by decide

theorem test_wellFormed_accepts : Instr.wellFormed Config.decided (.br 0#5 0#5 .nv) = true ∧
    Instr.wellFormed Config.decided (.brl 3#5 1#5 0#5 .nv) = true ∧
    Instr.wellFormed condNotTaken (.br 1#5 2#5 .reserved6) = true := by decide

/-! ## Decoding: every constructor, its word written out by fields -/

/-- immediate type 1, format I1 (R92); words of 95_test_vectors section 1.1. -/
theorem test_decode_type1 :
    decodeWord Config.decided 0b00000_00001_00010_00000000000000010#32 = .instr (.addi 1#5 2#5 2#17) ∧
    decodeWord Config.decided 0b00010_01010_01011_00000000000010001#32 = .instr (.ori 10#5 11#5 0x11#17) ∧
    decodeWord Config.decided 0b00100_00001_00010_00000000000000010#32 = .instr (.andi 1#5 2#5 2#17) ∧
    decodeWord Config.decided 0b00110_00101_00000_00000000000010001#32 = .instr (.movi 5#5 0x11#17) := by decide

/-- immediate type 2, format I2 (R93); words of 95_test_vectors section 1.1. -/
theorem test_decode_type2 :
    decodeWord Config.decided 0b00001_00001_00010_00_0000000011_00101#32 = .instr (.addi2 1#5 2#5 ⟨.shl, 3#10, 5#5⟩) ∧
    decodeWord Config.decided 0b00011_01010_01011_10_1100110000_00100#32 = .instr (.ori2 10#5 11#5 ⟨.asr, 0x330#10, 4#5⟩) ∧
    decodeWord Config.decided 0b00101_00001_00010_01_0011111111_01000#32 = .instr (.andi2 1#5 2#5 ⟨.lsr, 0xFF#10, 8#5⟩) ∧
    decodeWord Config.decided 0b00111_00101_00000_11_0000000001_00001#32 = .instr (.movi2 5#5 ⟨.ror, 1#10, 1#5⟩) := by decide

/-- registers, formats R3 and R2 (R94, R95); words of 95_test_vectors section 1.1. -/
theorem test_decode_registers :
    decodeWord Config.decided 0b01000_00001_00010_00011_000000000000#32 = .instr (.add 1#5 2#5 3#5) ∧
    decodeWord Config.decided 0b01001_00010_00011_00100_000000000000#32 = .instr (.sub 2#5 3#5 4#5) ∧
    decodeWord Config.decided 0b01010_10110_00000_00111_000000000000#32 = .instr (.not 22#5 7#5) ∧
    decodeWord Config.decided 0b01011_01100_00000_10000_000000000000#32 = .instr (.neg 12#5 16#5) ∧
    decodeWord Config.decided 0b01100_01010_01011_01100_000000000000#32 = .instr (.or 10#5 11#5 12#5) ∧
    decodeWord Config.decided 0b01101_00001_00010_00011_000000000000#32 = .instr (.and 1#5 2#5 3#5) ∧
    decodeWord Config.decided 0b01110_00010_00011_10110_000000000000#32 = .instr (.xor 2#5 3#5 22#5) := by decide

/-- shifts, format SH (R96); words of 95_test_vectors section 1.1. -/
theorem test_decode_shifts :
    decodeWord Config.decided 0b01111_00001_00010_00000_000000_0_00100#32 = .instr (.asr 1#5 2#5 4#5) ∧
    decodeWord Config.decided 0b01111_00001_00010_00011_000000_1_00000#32 = .instr (.asrR 1#5 2#5 3#5) ∧
    decodeWord Config.decided 0b10000_00001_00010_00000_000000_0_00100#32 = .instr (.lsr 1#5 2#5 4#5) ∧
    decodeWord Config.decided 0b10000_00001_00010_00011_000000_1_00000#32 = .instr (.lsrR 1#5 2#5 3#5) ∧
    decodeWord Config.decided 0b10001_00001_00010_00000_000000_0_00100#32 = .instr (.shl 1#5 2#5 4#5) ∧
    decodeWord Config.decided 0b10001_00001_00010_00011_000000_1_00000#32 = .instr (.shlR 1#5 2#5 3#5) ∧
    decodeWord Config.decided 0b10010_00001_00010_00000_000000_0_00100#32 = .instr (.ror 1#5 2#5 4#5) ∧
    decodeWord Config.decided 0b10010_00001_00010_00011_000000_1_00000#32 = .instr (.rorR 1#5 2#5 3#5) := by decide

/-- branches, formats B and BL (R98, R99); words of 95_test_vectors section 1.1. -/
theorem test_decode_branches :
    decodeWord Config.decided 0b10011_00000_00001_00000_000000000_001#32 = .instr (.br 1#5 0#5 .al) ∧
    decodeWord Config.decided 0b10011_00000_00100_00110_000000000_011#32 = .instr (.br 4#5 6#5 .ne) ∧
    decodeWord Config.decided 0b10011_00000_00001_00010_000000000_010#32 = .instr (.br 1#5 2#5 .eq) ∧
    decodeWord Config.decided 0b10100_00001_00010_00000_000000000_001#32 = .instr (.brl 1#5 2#5 0#5 .al) ∧
    decodeWord Config.decided 0b10100_00100_00110_01011_000000000_100#32 = .instr (.brl 4#5 6#5 11#5 .ge) ∧
    decodeWord Config.decided 0b10100_00101_00001_00010_000000000_101#32 = .instr (.brl 5#5 1#5 2#5 .lt) ∧
    decodeWord Config.decided 0b10100_00101_00001_00000_000000000_000#32 = .instr (.brl 5#5 1#5 0#5 .nv) := by decide

/-- 22-bit immediates, formats J and JR (R101, R102); words of 95_test_vectors section 1.1. -/
theorem test_decode_imm22 :
    decodeWord Config.decided 0b10101_00000_0000000000000000001100#32 = .instr (.j 12#22) ∧
    decodeWord Config.decided 0b10110_00001_0000000000000000010100#32 = .instr (.jl 1#5 20#22) ∧
    decodeWord Config.decided 0b11000_00001_0000000000000000001100#32 = .instr (.ldr 1#5 12#22) ∧
    decodeWord Config.decided 0b11010_00001_0000000000000000101000#32 = .instr (.str 1#5 40#22) ∧
    decodeWord Config.decided 0b11011_00001_0000000000000000100000#32 = .instr (.lea 1#5 0x20#22) := by decide

/-- memory with base, format M (R103); words of 95_test_vectors section 1.1. -/
theorem test_decode_memory :
    decodeWord Config.decided 0b10111_00011_10001_00000000000001000#32 = .instr (.ld 3#5 17#5 8#17) ∧
    decodeWord Config.decided 0b10111_00001_11111_00001000000000000#32 = .instr (.ld 1#5 31#5 0x1000#17) ∧
    decodeWord Config.decided 0b11001_00010_00100_00000000000000100#32 = .instr (.st 2#5 4#5 4#17) ∧
    decodeWord Config.decided 0b11001_00001_11111_00000000000000100#32 = .instr (.st 1#5 31#5 4#17) := by decide

/-- no operands, format S (R104); words of 95_test_vectors section 1.1. -/
theorem test_decode_no_operands :
    decodeWord Config.decided 0b11101_000000000000000000000000000#32 = .instr (.ien) ∧
    decodeWord Config.decided 0b11110_000000000000000000000000000#32 = .instr (.ids) ∧
    decodeWord Config.decided 0b11111_000000000000000000000000000#32 = .instr (.rfi) := by decide

/-- Reserved words, 95_test_vectors sections 2.4 and 2.7. -/
theorem test_decode_reserved :
    decodeWord Config.decided 0xE0000000#32 = .reserved .opcode28 ∧ decodeWord Config.decided 0xE7FFFFFF#32 = .reserved .opcode28 ∧
    decodeWord Config.decided 0x98020006#32 = .reserved .cond ∧ decodeWord Config.decided 0xA0420007#32 = .reserved .cond := by decide

/-- Unused bits are not looked at: 95_test_vectors section 2.7; `strictUnused` turns the words away. -/
theorem test_decode_unused_bits :
    decodeWord Config.decided 0x9FC00FF8#32 = .instr (.br 0#5 0#5 .nv) ∧
    decodeWord Config.decided 0x40443FFF#32 = .instr (.add 1#5 2#5 3#5) ∧
    decodeWord Config.decided 0x78443004#32 = .instr (.asr 1#5 2#5 4#5) ∧
    decodeWord Config.decided 0x78443024#32 = .instr (.asrR 1#5 2#5 3#5) ∧
    decodeWord Config.decided 0xFFFFFFFF#32 = .instr .rfi ∧
    decodeWord strictUnused 0x9FC00FF8#32 = .reserved .unusedBits ∧ decodeWord strictUnused 0x40443FFF#32 = .reserved .unusedBits ∧
    decodeWord strictUnused 0x78443004#32 = .reserved .unusedBits ∧ decodeWord strictUnused 0x40443000#32 = .instr (.add 1#5 2#5 3#5) := by
  decide

/-- Another layout puts the type-2 fields elsewhere (R93): imm10 at 16..7, shamt at 6..2, mode at 1..0. -/
theorem test_decode_other_layout :
    decodeWord { Config.decided with type2Layout := .immShamtMode } 0b00001_00001_00010_0000000011_00101_00#32
      = .instr (.addi2 1#5 2#5 ⟨.shl, 3#10, 5#5⟩) ∧
    encode { Config.decided with type2Layout := .immShamtMode } (.addi2 1#5 2#5 ⟨.shl, 3#10, 5#5⟩)
      = 0b00001_00001_00010_0000000011_00101_00#32 := by decide

theorem test_decodeTableWord : decodeTableWord 32 0x40443000 = some (.add 1#5 2#5 3#5) ∧ decodeTableWord 32 0xE0000000 = none := by
  decide

/-! ## One step of each instruction, from 95_test_vectors sections 1.2 and 2 -/

theorem test_addi : result (at100 0x00440002 [(2#5, 0x00000005#32)] []) (fun t => (t.reg 1#5, t.pc))
    = some (0x00000007#32, 0x104#32) := by decide

theorem test_addi2 : result (at100 0x08440065 [(2#5, 0x00000010#32)] []) (fun t => (t.reg 1#5, t.pc))
    = some (0x00000070#32, 0x104#32) := by decide

theorem test_ori : result (at100 0x12960011 [(11#5, 0x00000100#32)] []) (fun t => (t.reg 10#5, t.pc))
    = some (0x00000111#32, 0x104#32) := by decide

theorem test_ori2 : result (at100 0x1A976604 [(11#5, 0x00000100#32)] []) (fun t => (t.reg 10#5, t.pc))
    = some (0xFFFFFFF3#32, 0x104#32) := by decide

theorem test_andi : result (at100 0x20440002 [(2#5, 0x00000007#32)] []) (fun t => (t.reg 1#5, t.pc))
    = some (0x00000002#32, 0x104#32) := by decide

theorem test_andi2 : result (at100 0x28449FE8 [(2#5, 0xFFFFFFFF#32)] []) (fun t => (t.reg 1#5, t.pc))
    = some (0x00000000#32, 0x104#32) := by decide

theorem test_movi : result (at100 0x31400011 [] []) (fun t => (t.reg 5#5, t.pc))
    = some (0x00000011#32, 0x104#32) := by decide

theorem test_movi2 : result (at100 0x39418021 [] []) (fun t => (t.reg 5#5, t.pc))
    = some (0x80000000#32, 0x104#32) := by decide

theorem test_add : result (at100 0x40443000 [(2#5, 0x00000005#32), (3#5, 0x00000007#32)] []) (fun t => (t.reg 1#5, t.pc))
    = some (0x0000000C#32, 0x104#32) := by decide

theorem test_sub : result (at100 0x48864000 [(3#5, 0x00000005#32), (4#5, 0x00000007#32)] []) (fun t => (t.reg 2#5, t.pc))
    = some (0xFFFFFFFE#32, 0x104#32) := by decide

theorem test_not : result (at100 0x55807000 [(7#5, 0x0000FFFF#32)] []) (fun t => (t.reg 22#5, t.pc))
    = some (0xFFFF0000#32, 0x104#32) := by decide

theorem test_neg : result (at100 0x5B010000 [(16#5, 0x00000005#32)] []) (fun t => (t.reg 12#5, t.pc))
    = some (0xFFFFFFFB#32, 0x104#32) := by decide

theorem test_or : result (at100 0x6296C000 [(11#5, 0x0000F0F0#32), (12#5, 0x00000F0F#32)] []) (fun t => (t.reg 10#5, t.pc))
    = some (0x0000FFFF#32, 0x104#32) := by decide

theorem test_and : result (at100 0x68443000 [(2#5, 0x0000FF00#32), (3#5, 0x00000FF0#32)] []) (fun t => (t.reg 1#5, t.pc))
    = some (0x00000F00#32, 0x104#32) := by decide

theorem test_xor : result (at100 0x70876000 [(3#5, 0x0000FF00#32), (22#5, 0x00000FF0#32)] []) (fun t => (t.reg 2#5, t.pc))
    = some (0x0000F0F0#32, 0x104#32) := by decide

theorem test_asr : result (at100 0x78440004 [(2#5, 0x80000010#32)] []) (fun t => (t.reg 1#5, t.pc))
    = some (0xF8000001#32, 0x104#32) := by decide

theorem test_asrR : result (at100 0x78443020 [(2#5, 0x80000010#32), (3#5, 0x00000024#32)] []) (fun t => (t.reg 1#5, t.pc))
    = some (0xF8000001#32, 0x104#32) := by decide

theorem test_lsr : result (at100 0x80440004 [(2#5, 0x80000010#32)] []) (fun t => (t.reg 1#5, t.pc))
    = some (0x08000001#32, 0x104#32) := by decide

theorem test_lsrR : result (at100 0x80443020 [(2#5, 0x80000010#32), (3#5, 0x00000004#32)] []) (fun t => (t.reg 1#5, t.pc))
    = some (0x08000001#32, 0x104#32) := by decide

theorem test_shl : result (at100 0x88440004 [(2#5, 0x80000011#32)] []) (fun t => (t.reg 1#5, t.pc))
    = some (0x00000110#32, 0x104#32) := by decide

theorem test_shlR : result (at100 0x88443020 [(2#5, 0x80000011#32), (3#5, 0x00000004#32)] []) (fun t => (t.reg 1#5, t.pc))
    = some (0x00000110#32, 0x104#32) := by decide

theorem test_ror : result (at100 0x90440004 [(2#5, 0x80000011#32)] []) (fun t => (t.reg 1#5, t.pc))
    = some (0x18000001#32, 0x104#32) := by decide

theorem test_rorR : result (at100 0x90443020 [(2#5, 0x80000011#32), (3#5, 0x00000004#32)] []) (fun t => (t.reg 1#5, t.pc))
    = some (0x18000001#32, 0x104#32) := by decide

theorem test_ld : result (at100 0xB843FFF8 [(1#5, 0x00002008#32)] [(0x00002000#32, 0x66666666#32)]) (fun t => (t.reg 1#5, t.pc))
    = some (0x66666666#32, 0x104#32) := by decide

theorem test_ld_absolute_top : result (at100 0xB87FFFFC [] [(0xFFFFFFFC#32, 0x22222222#32)]) (fun t => (t.reg 1#5, t.pc))
    = some (0x22222222#32, 0x104#32) := by decide

theorem test_ldr : result (at100 0xC07FFEF8 [] [(0xFFFFFFFC#32, 0xCCCCCCCC#32)]) (fun t => (t.reg 1#5, t.pc))
    = some (0xCCCCCCCC#32, 0x104#32) := by decide

theorem test_ldr_forward : result (at100 0xC040000C [] [(0x00000110#32, 0xAAAAAAAA#32)]) (fun t => (t.reg 1#5, t.pc))
    = some (0xAAAAAAAA#32, 0x104#32) := by decide

theorem test_lea : result (at100 0xD87FFFFC [] []) (fun t => (t.reg 1#5, t.pc))
    = some (0x00000100#32, 0x104#32) := by decide

theorem test_lea_odd : result (at100 0xD85FFFFF [] []) (fun t => (t.reg 1#5, t.pc))
    = some (0x00200103#32, 0x104#32) := by decide

theorem test_ld_ignores_low_bits :
    result (at100 0xB87E010A [] [(0x00000108#32, 0x77777777#32)]) (fun t => t.reg 1#5) = some 0x77777777#32 := by decide

theorem test_st : result (at100 0xC8880006 [(2#5, 0x01020304#32), (4#5, 0x3000#32)] [])
    (fun t => (t.dmem, t.reg 2#5)) = some ([(0xC01, 0x01020304#32)], 0x01020304#32) := by decide

theorem test_st_absolute : result (at100 0xC87FFFFC [(1#5, 0xDEADBEEF#32)] [])
    (fun t => t.dmem.word 0x3FFFFFFF#30) = some 0xDEADBEEF#32 := by decide

theorem test_str : result (at100 0xD0400028 [(1#5, 0x0BADF00D#32)] []) (fun t => t.dmem.word (wordIndex 0x12C#32))
    = some 0x0BADF00D#32 := by decide

/-- A store of zeros removes the cells, so that equal memories are equal lists. -/
theorem test_st_zero_is_canonical : result (at100 0xC87E0004 [(1#5, 0#32)] [(4#32, 0x01020304#32)]) (fun t => t.dmem) = some [] := by decide

theorem test_br_taken : result (at100 0x98020001 [(1#5, 0x40#32)] []) (fun t => (t.pc, t.bt)) = some (0x104#32, some 0x40#32) := by decide

theorem test_br_not_taken : result (at100 0x98022002 [(1#5, 0x40#32), (2#5, 1#32)] []) (fun t => (t.pc, t.bt))
    = some (0x104#32, none) := by decide

theorem test_br_misaligned : refusal (at100 0x98020001 [(1#5, 6#32)] []) = some .misalignedTarget := by decide

theorem test_brl_not_taken_links : result (at100 0xA10CB004 [(11#5, 0xFFFFFFFF#32)] []) (fun t => (t.reg 4#5, t.pc, t.bt))
    = some (0x104#32, 0x104#32, none) := by decide

theorem test_brl_taken : result (at100 0xA0440001 [(2#5, 0x200#32)] []) (fun t => (t.reg 1#5, t.bt))
    = some (0x104#32, some 0x200#32) := by decide

theorem test_brl_overlap : refusal (at100 0xA0420001 [(1#5, 0x200#32)] []) = some .linkOverlap ∧
    refusal (at100 0xA0822002 [(1#5, 0x200#32)] []) = some .linkOverlap ∧
    result (at100 0xA0420000 [(1#5, 0x200#32)] []) (fun t => (t.reg 1#5, t.bt)) = some (0x104#32, none) := by decide

theorem test_j : result (at100 0xA800000C [] []) (fun t => (t.pc, t.bt)) = some (0x104#32, some 0x110#32) ∧
    result (at100 0xA8200000 [] []) (fun t => t.bt) = some (some 0xFFE00104#32) := by decide

theorem test_j_misaligned : refusal (at100 0xA8000002 [] []) = some .misalignedTarget := by decide

theorem test_jl : result (at100 0xB7C00100 [] []) (fun t => (t.reg 31#5, t.bt)) = some (0x104#32, some 0x204#32) ∧
    result (at100 0xB07FFEFC [] []) (fun t => (t.reg 1#5, t.bt)) = some (0x104#32, some 0#32) := by decide

theorem test_ien : result (at100 0xE8000000 [] []) (fun t => t.ie) = some true := by decide

theorem test_ids : result { at100 0xF0000000 [] [] with ie := true } (fun t => t.ie) = some false := by decide

theorem test_rfi : result (at100 0xF8000000 [(31#5, 0xC#32)] []) (fun t => (t.pc, t.ie, t.reg 31#5))
    = some (0xC#32, true, 0xC#32) := by decide

theorem test_rfi_misaligned : refusal (at100 0xF8000000 [(31#5, 0xE#32)] []) = some .misalignedTarget := by decide

/-- The delay slot: PC is the pending target after it, and its own currentPC is its own address + 4 (R202). -/
theorem test_delay_slot : result { at100 0xD8400000 [] [] with bt := some 0x40#32 } (fun t => (t.reg 1#5, t.pc, t.bt, t.slot))
    = some (0x104#32, 0x40#32, none, none) := by decide

theorem test_transfer_in_delay_slot : refusal { at100 0xA8000008 [] [] with bt := some 0x20#32 } = some .transferInDelaySlot ∧
    refusal { at100 0xF8000000 [] [] with bt := some 0x20#32 } = some .transferInDelaySlot := by decide

/-- PC wraps (R33). -/
theorem test_pc_wraps : result ({ State.reset with pc := 0xFFFFFFFC#32 }.withFetchWord 32 0xD8400000) (fun t => (t.reg 1#5, t.pc))
    = some (0#32, 0#32) := by decide

/-- 95_test_vectors section 2.6: entry at 0x0C with the vector at 0x80. -/
def requesting : State :=
  { State.reset with pc := 0xC#32, ie := true, inputs := [⟨false, true⟩], config := noVector }

theorem test_interrupt_entry : result requesting (fun t => (t.reg 31#5, t.ie, t.pc, t.outputs, t.inputs))
    = some (0xC#32, false, 0x80#32, [Output.iack], []) := by decide

theorem test_request_while_disabled : result { at100 0xD8400000 [] [] with inputs := [⟨false, true⟩] } (fun t => (t.pc, t.inputs))
    = some (0x104#32, []) := by decide

theorem test_request_in_delay_slot :
    refusal { requesting with bt := some 0x10#32 } = some .irqInDelaySlot ∧
    result ({ requesting with bt := some 0x10#32, config := holding }) (fun t => t.pc) = some 0x10#32 := by decide

theorem test_reset_event : result { requesting with inputs := [⟨true, true⟩], bt := some 0x10#32 } (fun t => (t.pc, t.ie, t.bt))
    = some (0#32, false, none) := by decide

theorem test_reserved_words_are_refused : refusal (at100 0xE0000000 [] []) = some .reservedOpcode ∧
    refusal (at100 0x98020006 [] []) = some .reservedCond ∧
    refusal (withConfig (at100 0x40443FFF [] []) strictUnused) = some .unusedBits := by decide

/-- A machine with small memories: stuck outside them, a free value from its device. -/
theorem test_ranges :
    faultOf { State.reset with pc := 0x400#32, config := small } = some .stuckFetch ∧
    faultOf (withConfig (at100 0xB87E0800 [] []) small) = some .stuckData ∧
    result (withConfig (at100 0xB87E07FC [] []) small) (fun t => t.draws) = some 1 ∧
    result (withConfig (at100 0xC87E07FC [(1#5, 9#32)] []) small) (fun t => (t.outputs, t.dmem))
      = some ([Output.deviceWrite 0x1FF#30 9#32], []) := by decide

theorem test_misaligned_data_refused : refusal (withConfig (at100 0xB87E010A [] []) strictData) = some .misalignedData ∧
    refusal (withConfig (at100 0xC87E0105 [] []) strictData) = some .misalignedData := by decide

/-! ## Assembly lines of the spec's own table -/

/-- Examples of the spec's own table (R112, R113, R114). -/
theorem test_assemble_immediates :
    assembleText "ADDI r1, r2, #2".toList = some (.addi 1 2 2) ∧
    assembleText "ORI r10, r11, ASR(#0x330, #4)".toList =
      some (.ori2 10 11 { mode := .asr, imm10 := 0x330, shamt := 4 }) ∧
    assembleText "MOVI r1, #0x11".toList = some (.movi 1 0x11) ∧
    assembleText "MOVI r1, #131072".toList = none := by decide

theorem test_assemble_registers :
    assembleText "NOT r22, r7".toList = some (.not 22 7) ∧
    assembleText "asr r1, r2, #4".toList = some (.asr 1 2 4) ∧
    assembleText "ASR r1, r2, r3".toList = some (.asrR 1 2 3) ∧
    assembleText "ASR r1, r2, r32".toList = none := by decide

theorem test_assemble_transfers :
    assembleText "BRNZ r4, r6".toList = some (.br 4 6 .ne) ∧
    assembleText "BRL r1, r2".toList = some (.brl 1 2 0 .al) ∧
    assembleText "BRLGE r4, r6, r11".toList = some (.brl 4 6 11 .ge) ∧
    assembleText "BRNV r0".toList = some (.br 0 0 .nv) ∧
    assembleText "J #-4".toList = some (.j 0x3FFFFC) := by decide

theorem test_assemble_memory :
    assembleText "LD r1, #0x1000".toList = some (.ld 1 31 0x1000) ∧
    assembleText "ST r2, #4(r4)".toList = some (.st 2 4 4) ∧
    assembleText "LD r3, #8(r31)".toList = none ∧
    assembleText "RFI".toList = some .rfi := by decide

theorem test_line_text :
    (Instr.brl 4 6 11 .ge).line.text = "BRLGE r4, r6, r11" ∧
    (Instr.addi2 1 2 { mode := .shl, imm10 := 3, shamt := 5 }).line.text = "ADDI r1, r2, SHL(#3, #5)" ∧
    (Instr.ld 3 17 8).line.text = "LD r3, #8(r17)" ∧ Instr.ien.line.text = "IEN" := by decide

/-! ## Witnesses: concrete states and operands that meet the hypotheses of each obligation -/

theorem witness_DecodeOfEncodeIsTheInstruction : Instr.wellFormed Config.decided (.brl 31#5 0#5 31#5 .lt) = true ∧
    Instr.wellFormed condNotTaken (.br 1#5 2#5 .reserved7) = true := by decide

theorem witness_DecodedWordIsCanonicalUpToUnusedBits :
    decodeWord Config.decided 0x40443FFF#32 = .instr (.add 1#5 2#5 3#5) ∧
    decodeWord strictUnused 0x40443000#32 = .instr (.add 1#5 2#5 3#5) ∧ strictUnused.unusedBits = .refuse := by decide

theorem witness_UnusedBitsDoNotMatter :
    (Config.decided.unusedBits = .ignore ∧
      0x9FC00FF8#32 &&& ~~~ unusedMask 0x98000000#32 = 0x98000000#32 &&& ~~~ unusedMask 0x98000000#32) ∧
    (strictUnused.unusedBits = .refuse ∧ 0x78443024#32 &&& unusedMask 0x78443024#32 ≠ 0#32) ∧
    Instr.wellFormed Config.decided (.br 0#5 0#5 .nv) = true := by decide

theorem witness_ReservedWordsAreExactlyOpcode28AndReservedConds :
    (0xE7FFFFFF#32).extractLsb' 27 5 = 28#5 ∧
    (Config.decided.reservedCond = .refuse ∧ (0xA0420007#32).extractLsb' 27 5 = 20#5 ∧ (0xA0420007#32).extractLsb' 0 3 = 7#3) ∧
    Config.decided.unusedBits = .ignore := by decide

theorem witness_Opcode28IsRefused : Quiet (at100 0xE0000000 [] []) ∧ Fetches (at100 0xE0000000 [] []) 0xE0000000#32 ∧
    (0xE0000000#32).extractLsb' 27 5 = 28#5 :=
  ⟨⟨by decide, by decide⟩, ⟨.inr (by decide), by decide, by decide⟩, by decide⟩

theorem witness_ReservedCondIsRefusedOrNeverTaken :
    ((at100 0x98020006 [] []).config.reservedCond = .refuse ∧ Quiet (at100 0x98020006 [] []) ∧
      Fetches (at100 0x98020006 [] []) 0x98020006#32 ∧ (0x98020006#32).extractLsb' 27 5 = 19#5 ∧
      (0x98020006#32).extractLsb' 0 3 = 6#3) ∧
    ((at100 0xA0420007 [] []).config.reservedCond = .refuse ∧ Quiet (at100 0xA0420007 [] []) ∧
      Fetches (at100 0xA0420007 [] []) 0xA0420007#32 ∧ (0xA0420007#32).extractLsb' 27 5 = 20#5 ∧
      (0xA0420007#32).extractLsb' 0 3 = 7#3) ∧
    (withConfig (executing []) condNotTaken).config.reservedCond = .notTaken ∧ (1#5 : Reg) ≠ 2#5 :=
  ⟨⟨by decide, ⟨by decide, by decide⟩, ⟨.inr (by decide), by decide, by decide⟩, by decide, by decide⟩,
    ⟨by decide, ⟨by decide, by decide⟩, ⟨.inr (by decide), by decide, by decide⟩, by decide, by decide⟩, by decide, by decide⟩

theorem witness_SignExtensionCopiesTheTopBit : (16 : Nat) < 32 ∧ (17 : Nat) < 32 ∧ (31 : Nat) < 32 := by decide

theorem witness_ShiftFunctionsBitByBit : (0 : Nat) < 32 ∧ (31 : Nat) < 32 ∧ (0#5 : BitVec 5) = 0#5 := by decide

/-- A delay slot; the misaligned low bits; the highest aligned target. -/
theorem witness_DelayedBranchPrimitive :
    ({ executing [] with slot := some 0#32 }.config.misalignedPc = .refuse ∧ { executing [] with slot := some 0#32 }.slot ≠ none) ∧
    ((executing []).slot = none ∧ (0x201#32).extractLsb' 0 2 ≠ 0#2 ∧ (0x203#32).extractLsb' 0 2 ≠ 0#2) ∧
    ((executing []).slot = none ∧ (0xFFFFFFFC#32).extractLsb' 0 2 = 0#2) := by decide

theorem witness_Type2ImmediateResults : Config.decided.type2Layout = .modeImmShamt := by decide

theorem witness_BrBranchesWhenTheConditionHolds :
    (Instr.br 1#5 2#5 .eq).wellFormed (executing []).config = true ∧
    taken (executing [(2#5, 1#32)]).config .eq ((executing [(2#5, 1#32)]).reg 2#5) = some false ∧
    (taken (executing []).config .eq ((executing []).reg 2#5) = some true ∧ (executing []).slot = none ∧
      isAligned ((executing []).reg 1#5) = true) ∧
    { executing [] with slot := some 0#32 }.slot ≠ none ∧
    (isAligned ((executing [(1#5, 3#32)]).reg 1#5) = false ∧ (executing [(1#5, 3#32)]).config.misalignedPc = .refuse) := by decide

theorem witness_BrlLinksAlwaysAndBranchesWhenTheConditionHolds :
    (Instr.brl 5#5 1#5 2#5 .lt).wellFormed (executing []).config = true ∧ (5#5 : Reg) ≠ 1#5 ∧ (5#5 : Reg) ≠ 2#5 ∧
    taken (executing []).config .lt ((executing []).reg 2#5) = some false ∧
    (taken (executing [(2#5, 0x80000000#32)]).config .lt ((executing [(2#5, 0x80000000#32)]).reg 2#5) = some true ∧
      (executing [(2#5, 0x80000000#32)]).slot = none ∧ isAligned ((executing [(2#5, 0x80000000#32)]).reg 1#5) = true) ∧
    { executing [] with slot := some 0#32 }.slot ≠ none ∧
    (isAligned ((executing [(1#5, 2#32)]).reg 1#5) = false ∧ (executing [(1#5, 2#32)]).config.misalignedPc = .refuse) := by decide

/-- ra = rb, and ra = rc; each value of the switch; each outcome of the condition. -/
theorem witness_OverlappingBrlIsRefusedOrReadsOldOrNewValues :
    ((Cond.al ≠ .nv ∧ (1#5 : Reg) = 1#5) ∧ (testsRc .eq = true ∧ (2#5 : Reg) = 2#5)) ∧
    (executing []).config.brlOverlap = .refuse ∧
    ((executing []).slot = none ∧ isAligned (executing []).pc = true ∧ isAligned ((executing []).reg 1#5) = true) ∧
    ((withConfig (executing []) oldReading).config.brlOverlap = .oldValues ∧ taken oldReading .eq 0#32 = some true) ∧
    ((withConfig (executing []) newReading).config.brlOverlap = .newValues ∧
      taken newReading .eq (executing []).pc = some false ∧ taken newReading .al 0#32 = some true) := by decide

/-- A jump to the top of its reach, and one byte off. -/
theorem witness_JumpIsRelativeToCurrentPc :
    ((executing []).slot = none ∧ isAligned (relativeAddress 0x1FFFFC#22 (executing [])) = true) ∧
    { executing [] with slot := some 0#32 }.slot ≠ none ∧
    (isAligned (relativeAddress 0x1FFFFD#22 (executing [])) = false ∧ (executing []).config.misalignedPc = .refuse) := by decide

theorem witness_JumpAndLinkStoresCurrentPc :
    ((executing []).slot = none ∧ isAligned (relativeAddress 0x200000#22 (executing [])) = true) ∧
    { executing [] with slot := some 0#32 }.slot ≠ none ∧
    (isAligned (relativeAddress 1#22 (executing [])) = false ∧ (executing []).config.misalignedPc = .refuse) := by decide

/-- The first and the last word of data memory, and a word just below a device. -/
theorem witness_LoadResults :
    PlainData (executing []) (baseAddress 31#5 0#17 (executing [])) ∧
    PlainData (executing []) (baseAddress 31#5 0x1FFFC#17 (executing [])) ∧
    PlainData (withConfig (executing []) small) (relativeAddress 0x2F8#22 (withConfig (executing []) small)) :=
  ⟨⟨by decide, by decide, by decide⟩, ⟨by decide, by decide, by decide⟩, ⟨by decide, by decide, by decide⟩⟩

theorem witness_StoreResults :
    ((executing []).dmem.wf = true ∧ PlainData (executing []) (baseAddress 4#5 6#17 (executing []))) ∧
    ((executing []).dmem.wf = true ∧ PlainData (executing []) (relativeAddress 40#22 (executing []))) ∧
    PlainData (withConfig (executing []) strictData) (baseAddress 31#5 0x1FFFC#17 (withConfig (executing []) strictData)) :=
  ⟨⟨by decide, ⟨by decide, by decide, by decide⟩⟩, ⟨by decide, ⟨by decide, by decide, by decide⟩⟩,
    ⟨by decide, by decide, by decide⟩⟩

theorem witness_ReturnFromInterruptRestoresPcAndEnables :
    ((executing [(31#5, 0xC#32)]).slot = none ∧ isAligned ((executing [(31#5, 0xC#32)]).reg 31#5) = true) ∧
    { executing [] with slot := some 0#32 }.slot ≠ none ∧
    (isAligned ((executing [(31#5, 0xE#32)]).reg 31#5) = false ∧ (executing [(31#5, 0xE#32)]).config.misalignedPc = .refuse) := by
  decide

theorem witness_LowAddressBitsAreIgnoredOrRefused :
    (executing []).config.misalignedData = .ignoreBits ∧
    ((withConfig (executing []) strictData).config.misalignedData = .refuse ∧ (0x10B#32).extractLsb' 0 2 ≠ 0#2) := by decide

/-- The first words past both ranges. -/
theorem witness_AccessOutsideImplementedMemoryIsStuck :
    (Quiet { State.reset with pc := 0x400#32, config := small } ∧
      AlignedUnlessKept small 0x400#32 ∧ implemented small.pmemRange (wordIndex 0x400#32) = false) ∧
    (loadAddress (withConfig (executing []) small) (.ld 1#5 31#5 0x800#17) = some 0x800#32 ∧
      storeAddress (withConfig (executing []) small) (.str 1#5 0x6FC#22) = some 0x800#32 ∧
      small.misalignedData ≠ .refuse ∧ implemented small.dmemRange (wordIndex 0x800#32) = false) :=
  ⟨⟨⟨by decide, by decide⟩, .inr (by decide), by decide⟩, by decide⟩

/-- The first and the last word of the device. -/
theorem witness_DeviceAccessCompletes :
    small.misalignedData ≠ .refuse ∧
    (implemented small.dmemRange (wordIndex 0x400#32) = true ∧ implemented small.deviceRange (wordIndex 0x400#32) = true) ∧
    (implemented small.dmemRange (wordIndex 0x7FC#32) = true ∧ implemented small.deviceRange (wordIndex 0x7FC#32) = true) ∧
    loadAddress (withConfig (executing []) small) (.ldr 1#5 0x2FC#22) = some 0x400#32 ∧
    storeAddress (withConfig (executing []) small) (.st 1#5 31#5 0x7FC#17) = some 0x7FC#32 := by decide

/-- The same word at two addresses, and two words. -/
theorem witness_LoadReturnsTheLastStore :
    (executing []).dmem.wf = true ∧ PlainData (executing []) (baseAddress 31#5 0x108#17 (executing [])) ∧
    PlainData (executing []) (baseAddress 4#5 0x10A#17 (executing [])) ∧
    PlainData (executing []) (baseAddress 4#5 0x10C#17 (executing [])) ∧
    wordIndex (baseAddress 4#5 0x10A#17 (executing [])) = wordIndex (baseAddress 31#5 0x108#17 (executing [])) ∧
    wordIndex (baseAddress 4#5 0x10C#17 (executing [])) ≠ wordIndex (baseAddress 31#5 0x108#17 (executing [])) :=
  ⟨by decide, ⟨by decide, by decide, by decide⟩, ⟨by decide, by decide, by decide⟩, ⟨by decide, by decide, by decide⟩,
    by decide, by decide⟩

/-- A store that changes a word. -/
theorem witness_OnlyStoresChangeMemory :
    (isAligned (at100 0xC87E0004 [] []).pc = true ∧
      implemented (at100 0xC87E0004 [] []).config.pmemRange (wordIndex (at100 0xC87E0004 [] []).pc) = true) ∧
    completes (step (at100 0xC87E0004 [(1#5, 0xDEADBEEF#32)] [])) = true ∧
    (after (step (at100 0xC87E0004 [(1#5, 0xDEADBEEF#32)] []))).dmem ≠ (at100 0xC87E0004 [(1#5, 0xDEADBEEF#32)] []).dmem ∧
    (executing [(1#5, 0xDEADBEEF#32)]).dmem.wf = true ∧
    completes (exec (.st 1#5 31#5 4#17) (executing [(1#5, 0xDEADBEEF#32)])) = true ∧
    (after (exec (.st 1#5 31#5 4#17) (executing [(1#5, 0xDEADBEEF#32)]))).dataWord 1#30
      ≠ (executing [(1#5, 0xDEADBEEF#32)]).dataWord 1#30 := by decide

theorem quiet_at100 (w : Nat) (regs : List (Reg × Word)) (data : List (Word × Word))
    (h : (at100 w regs data).pins.rst = false ∧ (at100 w regs data).ie = false) : Quiet (at100 w regs data) :=
  ⟨h.1, .inl h.2⟩

theorem witness_StepRunsTheDecodedInstruction :
    Quiet (at100 0x00440002 [] []) ∧ Fetches (at100 0x00440002 [] []) 0x00440002#32 ∧
    decodeWord (at100 0x00440002 [] []).config 0x00440002#32 = .instr (.addi 1#5 2#5 2#17) :=
  ⟨⟨by decide, by decide⟩, ⟨.inr (by decide), by decide, by decide⟩, by decide⟩

/-- One state for each clause. -/
theorem witness_CurrentPcIsTheInstructionsAddressPlusFour :
    (Quiet (at100 0x00440002 [] []) ∧ FetchesInstr (at100 0x00440002 [] []) (.addi 1#5 2#5 2#17) ∧
      (at100 0x00440002 [] []).bt = none ∧ completes (step (at100 0x00440002 [] [])) = true) ∧
    (Quiet (at100 0xD8400020 [] []) ∧ FetchesInstr (at100 0xD8400020 [] []) (.lea 1#5 0x20#22)) ∧
    (Quiet (at100 0xB0400014 [] []) ∧ FetchesInstr (at100 0xB0400014 [] []) (.jl 1#5 20#22) ∧
      (at100 0xB0400014 [] []).config.misalignedPc = .refuse ∧ completes (step (at100 0xB0400014 [] [])) = true) ∧
    (Quiet (at100 0xA1420000 [] []) ∧ FetchesInstr (at100 0xA1420000 [] []) (.brl 5#5 1#5 0#5 .nv) ∧
      completes (step (at100 0xA1420000 [] [])) = true) ∧
    (Quiet (at100 0xA800000C [] []) ∧ FetchesInstr (at100 0xA800000C [] []) (.j 12#22) ∧
      completes (step (at100 0xA800000C [] [])) = true) ∧
    (Quiet (at100 0xC040000C [] []) ∧ FetchesInstr (at100 0xC040000C [] []) (.ldr 1#5 12#22) ∧
      PlainData (at100 0xC040000C [] []) 0x110#32) ∧
    ((at100 0xD0400028 [] []).dmem.wf = true ∧ Quiet (at100 0xD0400028 [] []) ∧
      FetchesInstr (at100 0xD0400028 [] []) (.str 1#5 40#22) ∧ PlainData (at100 0xD0400028 [] []) 0x12C#32) :=
  ⟨⟨quiet_at100 _ _ _ (by decide), ⟨0x00440002#32, ⟨.inr (by decide), by decide, by decide⟩, by decide⟩, by decide, by decide⟩,
    ⟨quiet_at100 _ _ _ (by decide), ⟨0xD8400020#32, ⟨.inr (by decide), by decide, by decide⟩, by decide⟩⟩,
    ⟨quiet_at100 _ _ _ (by decide), ⟨0xB0400014#32, ⟨.inr (by decide), by decide, by decide⟩, by decide⟩, by decide, by decide⟩,
    ⟨quiet_at100 _ _ _ (by decide), ⟨0xA1420000#32, ⟨.inr (by decide), by decide, by decide⟩, by decide⟩, by decide⟩,
    ⟨quiet_at100 _ _ _ (by decide), ⟨0xA800000C#32, ⟨.inr (by decide), by decide, by decide⟩, by decide⟩, by decide⟩,
    ⟨quiet_at100 _ _ _ (by decide), ⟨0xC040000C#32, ⟨.inr (by decide), by decide, by decide⟩, by decide⟩,
      ⟨by decide, by decide, by decide⟩⟩,
    ⟨by decide, quiet_at100 _ _ _ (by decide), ⟨0xD0400028#32, ⟨.inr (by decide), by decide, by decide⟩, by decide⟩,
      ⟨by decide, by decide, by decide⟩⟩⟩

/-- A taken and a not-taken BR, each with the LEA at 0x104 as its delay slot. -/
def branching (tested : Word) : State :=
  let s := at100 0x98022002 [(1#5, 0x40#32), (2#5, tested)] []
  { s with pmem := s.pmem.setWord (wordIndex 0x104#32) 0xD8C00000#32 }

theorem witness_DelaySlotExecutesThenControlIsAtTheTarget :
    (FetchesInstr (branching 0#32) (.br 1#5 2#5 .eq) ∧ FetchesInstr (branching 1#32) (.br 1#5 2#5 .eq)) ∧
    hasDelaySlot (.br 1#5 2#5 .eq) = true ∧
    ((branching 0#32).pins = .idle ∧ (branching 0#32).ie = false ∧ (branching 0#32).bt = none ∧
      completes (step (branching 0#32)) = true ∧ (after (step (branching 0#32))).bt = some 0x40#32 ∧
      (after (step (branching 0#32))).pins = .idle ∧ (after (step (branching 0#32))).ie = false ∧
      completes (step (after (step (branching 0#32)))) = true) ∧
    ((branching 1#32).pins = .idle ∧ (branching 1#32).ie = false ∧ (branching 1#32).bt = none ∧
      completes (step (branching 1#32)) = true ∧ (after (step (branching 1#32))).bt = none ∧
      (after (step (branching 1#32))).pins = .idle ∧ (after (step (branching 1#32))).ie = false ∧
      completes (step (after (step (branching 1#32)))) = true ∧
      (after (step (branching 1#32))).pmem.word (wordIndex (after (step (branching 1#32))).pc) = 0xD8C00000#32) :=
  ⟨⟨⟨0x98022002#32, ⟨.inr (by decide), by decide, by decide⟩, by decide⟩,
    ⟨0x98022002#32, ⟨.inr (by decide), by decide, by decide⟩, by decide⟩⟩, by decide, by decide, by decide⟩

/-- Every kind of transfer in a delay slot, and the two that transfer nothing. -/
theorem witness_ControlTransferInADelaySlotIsRefused :
    { executing [] with slot := some 0x20#32 }.slot ≠ none ∧
    transferTarget (executing []) (.j 0#22) = some 0x104#32 ∧ transferTarget (executing []) (.jl 1#5 2#22) = some 0x106#32 ∧
    transferTarget (executing []) (.br 1#5 2#5 .eq) = some 0#32 ∧
    (transferTarget (executing []) (.brl 3#5 1#5 0#5 .al) = some 0#32 ∧ overlappingBrl (.brl 3#5 1#5 0#5 .al) = false) ∧
    transferTarget (executing []) .rfi = some 0#32 ∧
    taken (executing []).config .ne ((executing []).reg 2#5) = some false ∧ linkOverlaps 3#5 1#5 2#5 .ne = false := by decide

theorem witness_MisalignedTargetIsRefusedOrAdjusted :
    (executing []).slot = none ∧ transferTarget (executing [(31#5, 3#32)]) .rfi = some 3#32 ∧
    transferTarget (executing []) (.j 1#22) = some 0x105#32 ∧ overlappingBrl (.j 1#22) = false ∧
    isAligned 3#32 = false ∧ isAligned 0x105#32 = false ∧ (executing []).config.misalignedPc = .refuse ∧
    (withConfig (executing []) clearing).config.misalignedPc = .clearBits ∧
    (withConfig (executing []) keeping).config.misalignedPc = .keepBits := by decide

theorem witness_ResetEventOverridesEverything :
    { requesting with inputs := [⟨true, true⟩, ⟨false, true⟩] }.pins.rst = true ∧
    (after (step { requesting with inputs := [⟨true, true⟩, ⟨false, true⟩] })).pins.rst = false := by decide

theorem witness_InterruptEntrySavesPcAndClearsIe :
    requesting.pins.rst = false ∧ requesting.pins.ireq = true ∧ requesting.ie = true ∧ requesting.bt = none := by decide

theorem witness_RequestIsIgnoredWhileDisabled : (at100 0xD8400000 [] []).ie = false := by decide

/-- The LEA in a delay slot, requests at its boundary and at the next. -/
def requestedInSlot (c : Config) : State :=
  { at100 0xD8400000 [] [] with ie := true, bt := some 0x40#32, inputs := [⟨false, true⟩, ⟨false, true⟩], config := c }

theorem witness_RequestBetweenBranchAndDelaySlot :
    ((requestedInSlot noVector).pins = ⟨false, true⟩ ∧ (requestedInSlot noVector).ie = true ∧
      (requestedInSlot noVector).bt = some 0x40#32 ∧ (requestedInSlot noVector).config.irqInDelaySlot = .refuse) ∧
    ((requestedInSlot holding).pins = ⟨false, true⟩ ∧ (requestedInSlot holding).ie = true ∧
      (requestedInSlot holding).bt = some 0x40#32 ∧ (requestedInSlot holding).config.irqInDelaySlot = .hold ∧
      completes (step (requestedInSlot holding)) = true ∧ (after (step (requestedInSlot holding))).ie = true ∧
      (after (step (requestedInSlot holding))).pins = ⟨false, true⟩) := by decide

/-- The state after the entry, its RFI at the vector. -/
def servicing : State := (after (step requesting)).withFetchWord 32 0xF8000000

theorem witness_ReturnResumesTheInterruptedProgram :
    requesting.Inv ∧ boundary requesting = .entry ∧ completes (step requesting) = true ∧ Quiet servicing ∧ servicing.bt = none ∧
    servicing.config = requesting.config ∧ servicing.reg 31#5 = (after (step requesting)).reg 31#5 ∧ FetchesInstr servicing .rfi :=
  ⟨⟨.inr (by decide), fun _ h => (by cases h), rfl, by decide, by decide⟩, by decide, by decide, ⟨by decide, by decide⟩, by decide,
    rfl, by decide, ⟨0xF8000000#32, ⟨.inr (by decide), by decide, by decide⟩, by decide⟩⟩

theorem witness_OneAcknowledgePerEntry : completes (step requesting) = true ∧ boundary requesting = .entry ∧
    completes (step (at100 0xC87E0004 [] [])) = true ∧ boundary (at100 0xC87E0004 [] []) = .run := by decide

theorem witness_WritersAndReaderOfIe :
    completes (exec .ien (executing [])) = true ∧ completes (exec .ids (executing [])) = true ∧
    completes (exec .rfi (executing [])) = true ∧ completes (exec (.add 1#5 2#5 3#5) (executing [])) = true ∧
    (completes (step requesting) = true ∧ boundary requesting = .entry) ∧
    boundary { at100 0xD8400000 [] [] with ie := true } = boundary (at100 0xD8400000 [] []) := by decide

theorem witness_AccessToPc :
    (completes (exec .rfi (executing [])) = true ∧ (after (exec .rfi (executing []))).pc ≠ (executing []).pc) ∧
    (completes (exec (.j 0#22) (executing [])) = true ∧ (after (exec (.j 0#22) (executing []))).bt ≠ (executing []).bt) ∧
    readsCpc (.br 1#5 2#5 .eq) = false ∧ readsCpc (.ld 1#5 2#5 0#17) = false := by decide

/-- Two states that differ in a register ST does not read. -/
theorem witness_RegistersReadAndWritten :
    (executing [(7#5, 9#32)] = { executing [] with regs := (executing [(7#5, 9#32)]).regs } ∧
      (∀ r ∈ readRegs (executing []) (.st 1#5 2#5 0#17), (executing [(7#5, 9#32)]).reg r = (executing []).reg r) ∧
      (executing [(7#5, 9#32)]).reg 7#5 ≠ (executing []).reg 7#5 ∧ overlappingBrl (.st 1#5 2#5 0#17) = false) ∧
    (boundary requesting = .entry ∧ completes (step requesting) = true) :=
  ⟨⟨rfl, by decide, by decide, by decide⟩, by decide⟩

theorem witness_InstructionCompletesExactlyWhenDefined : DecidedSwitches (executing []).config :=
  ⟨rfl, rfl, rfl, rfl, rfl, rfl⟩

theorem witness_StopsAreThoseTheSpecLists :
    exec (.ld 1#5 31#5 0x800#17) (withConfig (executing []) small) = .fault .stuckData ∧
    DecidedSwitches (at100 0xE0000000 [] []).config ∧ step (at100 0xE0000000 [] []) = .refused .reservedOpcode :=
  ⟨by rfl, ⟨rfl, rfl, rfl, rfl, rfl, rfl⟩, by rfl⟩

/-- A state that meets the invariant with a branch pending, and steps. -/
theorem witness_EveryStepKeepsTheInvariant :
    { at100 0xD8400000 [] [] with bt := some 0x40#32 }.Inv ∧
    completes (step { at100 0xD8400000 [] [] with bt := some 0x40#32 }) = true :=
  ⟨⟨.inr (by decide), fun t h => by cases h; exact .inr (by decide), rfl, by decide, by decide⟩, by decide⟩

theorem witness_AssemblerReadsEveryInstructionsLine : Instr.wellFormed Config.decided (.brl 1#5 2#5 3#5 .ge) = true ∧
    Instr.wellFormed condNotTaken (.br 1#5 2#5 .reserved6) = true ∧ hasReservedCond (.br 1#5 2#5 .reserved6) = true ∧
    (-65536 ≤ (-65536 : Int) ∧ (-65536 : Int) ≤ 131071) ∧ (-65536 ≤ (131071 : Int) ∧ (131071 : Int) ≤ 131071) ∧
    ((-65537 : Int) < -65536 ∨ 131071 < (-65537 : Int)) ∧ ((131072 : Int) < -65536 ∨ 131071 < (131072 : Int)) := by decide

end Sys2Proof.Tests
end

section
/-! The test that each of the six conditions of BR and BRL makes of its register (R14, R193). -/

namespace Sys2Proof.Machine

@[simp] theorem taken_nv (c : Config) (v : Word) : taken c .nv v = some false := rfl

@[simp] theorem taken_al (c : Config) (v : Word) : taken c .al v = some true := rfl

theorem taken_eq (c : Config) (v : Word) : taken c .eq v = some (decide (v.toNat = 0)) :=
  congrArg some (decide_eq_decide.mpr (BitVec.toNat_eq (y := 0#32)))

theorem taken_ne (c : Config) (v : Word) : taken c .ne v = some (decide (v.toNat ≠ 0)) := by
  have hnot : taken c .ne v = (taken c .eq v).map not := rfl
  rw [hnot, taken_eq, Option.map_some, ← decide_not]

/-- Bit 31 is the sign, so this is the signed "at least zero" (R194). -/
theorem taken_ge (c : Config) (v : Word) : taken c .ge v = some (decide (v.getLsbD 31 = false)) := by
  have hmsb : taken c .ge v = some (!v.msb) := rfl
  rw [hmsb, BitVec.msb_eq_getLsbD_last, Bool.decide_eq_false]

theorem taken_lt (c : Config) (v : Word) : taken c .lt v = some (decide (v.getLsbD 31 = true)) := by
  have hmsb : taken c .lt v = some v.msb := rfl
  rw [hmsb, BitVec.msb_eq_getLsbD_last, Bool.decide_eq_true]

end Sys2Proof.Machine

open Sys2Proof Sys2Proof.Machine

/-- Settles O10: each literal code evaluates to its condition, and the lemmas above give the condition's test. -/
theorem conditionTestsTheRegister : Obligations.ConditionTestsTheRegister := fun c v =>
  ⟨taken_nv c v, taken_al c v, taken_eq c v, taken_ne c v, taken_ge c v, taken_lt c v,
    Cond.ofCode_code .reserved6, Cond.ofCode_code .reserved7⟩

end

section
/-! Two runs of one shared operation, side by side: where both states agree on what the operation looks at, it ends alike
in both. `R` is what the caller wants of the two next states. -/

namespace Sys2Proof.Machine

theorem Alike.imp {R Q : State → State → Prop} {o o' : Host.Outcome State Fault Refusal}
    (h : ∀ t t', R t t' → Q t t') (ho : Alike R o o') : Alike Q o o' := by
  cases o with
  | next t =>
    cases o' with
    | next t' => exact h t t' ho
    | fault | refused => exact ho
  | fault | refused => cases o' <;> exact ho

theorem Alike.retireOutcome {R Q : State → State → Prop} {o o' : Host.Outcome State Fault Refusal}
    (h : ∀ t t', R t t' → Q (retire t) (retire t')) (ho : Alike R o o') :
    Alike Q (retireOutcome o) (retireOutcome o') := by
  cases o with
  | next t =>
    cases o' with
    | next t' => exact h t t' ho
    | fault | refused => exact ho
  | fault | refused => cases o' <;> exact ho

variable {R : State → State → Prop} {s s' : State}

theorem alike_loadWord {ra : Reg} {ea ea' : Word} (hc : s'.config = s.config) (hea : ea' = ea)
    (hdevice : R (s.drawn.setReg ra s.fresh) (s'.drawn.setReg ra s'.fresh))
    (hmemory : R (s.setReg ra (s.dmem.word (wordIndex ea))) (s'.setReg ra (s'.dmem.word (wordIndex ea)))) :
    Alike R (loadWord ra ea s) (loadWord ra ea' s') := by
  unfold loadWord
  rw [hc, hea]
  split
  · rfl
  · split
    · rfl
    · split
      · exact hdevice
      · exact hmemory

theorem alike_storeWord {ea ea' v v' : Word} (hc : s'.config = s.config) (hea : ea' = ea) (hv : v' = v)
    (hdevice : R (s.emit (.deviceWrite (wordIndex ea) v)) (s'.emit (.deviceWrite (wordIndex ea) v)))
    (hmemory : R (s.setDmem (s.dmem.setWord (wordIndex ea) v)) (s'.setDmem (s'.dmem.setWord (wordIndex ea) v))) :
    Alike R (storeWord ea v s) (storeWord ea' v' s') := by
  unfold storeWord
  rw [hc, hea, hv]
  split
  · rfl
  · split
    · rfl
    · split
      · exact hdevice
      · exact hmemory

theorem alike_delayedBranch {target : Word} (hc : s'.config = s.config) (hs : s'.slot = s.slot)
    (hbranch : ∀ a, R (s.setBt (some a)) (s'.setBt (some a))) :
    Alike R (delayedBranch target s) (delayedBranch target s') := by
  unfold delayedBranch
  rw [hc, hs]
  split
  · rfl
  · split
    · rfl
    · exact hbranch _

theorem alike_interruptReturn (hc : s'.config = s.config) (hs : s'.slot = s.slot) (hipc : s'.reg ipc = s.reg ipc)
    (hreturn : ∀ a, R ((s.setPc a).setIe true) ((s'.setPc a).setIe true)) :
    Alike R (interruptReturn s) (interruptReturn s') := by
  unfold interruptReturn
  rw [hc, hs, hipc]
  split
  · rfl
  · split
    · rfl
    · exact hreturn _

end Sys2Proof.Machine
end

section
/-! BR and BRL in one shape: a verdict, a target, and the state in which the branch is set up. -/

namespace Sys2Proof.Machine

/-- What BR and BRL do once the verdict of the condition is known (R193, R196, R197). -/
def branchIf (verdict : Option Bool) (target : Word) (s : State) : Host.Outcome State Fault Refusal :=
  match verdict with
  | none => .refused .reservedCond
  | some false => .next s
  | some true => delayedBranch target s

theorem execBr_eq (rb rc : Reg) (cond : Cond) (s : State) :
    execBr rb rc cond s = branchIf (taken s.config cond (s.reg rc)) (s.reg rb) s := rfl

theorem linkAndBranch_eq (old : State) (ra rb rc : Reg) (cond : Cond) (s : State) :
    linkAndBranch old ra rb rc cond s =
      branchIf (taken s.config cond (old.reg rc)) (old.reg rb) (s.setReg ra s.pc) := rfl

/-- The state whose registers a BRL reads: under `newValues` an overlapping one reads its own link (log 17). -/
def brlOperands (ra rb rc : Reg) (cond : Cond) (s : State) : State :=
  if linkOverlaps ra rb rc cond = true ∧ s.config.brlOverlap = .newValues then s.setReg ra s.pc else s

theorem execBrl_of_refused {ra rb rc : Reg} {cond : Cond} {s : State}
    (h : linkOverlaps ra rb rc cond = true ∧ s.config.brlOverlap = .refuse) :
    execBrl ra rb rc cond s = .refused .linkOverlap := by
  simp [execBrl, h.1, h.2]

theorem execBrl_of_accepted {ra rb rc : Reg} {cond : Cond} {s : State}
    (h : ¬ (linkOverlaps ra rb rc cond = true ∧ s.config.brlOverlap = .refuse)) :
    execBrl ra rb rc cond s = linkAndBranch (brlOperands ra rb rc cond s) ra rb rc cond s := by
  unfold execBrl brlOperands
  cases ho : linkOverlaps ra rb rc cond
  · simp
  · cases hc : s.config.brlOverlap
    · exact absurd ⟨ho, hc⟩ h
    · simp
    · simp

/-- A branch that completes changes no register of the state it is set up in. -/
theorem branchIf_reg {verdict : Option Bool} {target : Word} {s t : State} (h : branchIf verdict target s = .next t)
    (r : Reg) : t.reg r = s.reg r := by
  unfold branchIf at h
  split at h
  · cases h
  · cases h; rfl
  · obtain ⟨-, a, -, rfl⟩ := delayedBranch_next h
    exact State.setBt_reg s _ r

/-- A condition that tests no register has a verdict of its own. -/
theorem taken_congr {c : Config} {cond : Cond} {v v' : Word} (h : testsRc cond = true → v' = v) :
    taken c cond v' = taken c cond v := by
  cases cond with
  | nv | al | reserved6 | reserved7 => rfl
  | eq | ne | ge | lt => rw [h rfl]

variable {R : State → State → Prop} {s s' : State}

theorem alike_branchIf {verdict verdict' : Option Bool} {target target' : Word} (hc : s'.config = s.config)
    (hs : s'.slot = s.slot) (hv : verdict' = verdict) (ht : verdict = some true → target' = target) (hnot : R s s')
    (hbranch : ∀ a, R (s.setBt (some a)) (s'.setBt (some a))) :
    Alike R (branchIf verdict target s) (branchIf verdict' target' s') := by
  subst hv
  match verdict', ht with
  | none, _ => rfl
  | some false, _ => exact hnot
  | some true, ht =>
    rw [ht rfl]
    exact alike_delayedBranch hc hs hbranch

/-- Two BRLs are alike where their condition's verdict and, if taken, their target are. -/
theorem alike_execBrl {ra rb rc : Reg} {cond : Cond} (hc : s'.config = s.config) (hs : s'.slot = s.slot)
    (hv : taken s.config cond ((brlOperands ra rb rc cond s').reg rc) =
      taken s.config cond ((brlOperands ra rb rc cond s).reg rc))
    (ht : taken s.config cond ((brlOperands ra rb rc cond s).reg rc) = some true →
      (brlOperands ra rb rc cond s').reg rb = (brlOperands ra rb rc cond s).reg rb)
    (hnot : R (s.setReg ra s.pc) (s'.setReg ra s'.pc))
    (hbranch : ∀ a, R ((s.setReg ra s.pc).setBt (some a)) ((s'.setReg ra s'.pc).setBt (some a))) :
    Alike R (execBrl ra rb rc cond s) (execBrl ra rb rc cond s') := by
  by_cases h : linkOverlaps ra rb rc cond = true ∧ s.config.brlOverlap = .refuse
  · rw [execBrl_of_refused h, execBrl_of_refused (hc ▸ h)]
    rfl
  · rw [execBrl_of_accepted h, execBrl_of_accepted (hc ▸ h), linkAndBranch_eq, linkAndBranch_eq, hc]
    exact alike_branchIf hc hs hv ht hnot hbranch

end Sys2Proof.Machine
end

section
/-! The step that fetches a given instruction, and what the instruction then reads as currentPC (R32). -/

namespace Sys2Proof.Machine

/-- A quiet step that fetches `i` is `i` executed on the issued state, then retired (R42 steps C2 to C7). -/
theorem step_of_fetchesInstr {s : State} {i : Instr} (hq : Quiet s) (hf : FetchesInstr s i) :
    ∃ w, step s = retireOutcome (exec i (issue w s.sampled)) := by
  obtain ⟨w, hw, hi⟩ := hf
  have hfetch : fetch s.sampled = .word w := fetch_of_fetches (s := s) hw
  refine ⟨w, ?_⟩
  simp only [step, boundary_of_quiet hq, runInstr, hfetch, State.sampled_config, hi]

/-- The next state of such a step is the instruction's own next state, retired. -/
theorem exec_of_step {s t : State} {i : Instr} (hq : Quiet s) (hf : FetchesInstr s i) (h : step s = .next t) :
    ∃ w u, exec i (issue w s.sampled) = .next u ∧ t = retire u := by
  obtain ⟨w, hstep⟩ := step_of_fetchesInstr hq hf
  exact ⟨w, retireOutcome_next (hstep ▸ h)⟩

/-- RFI alone writes PC while it executes (R34). -/
theorem Effect.pc {i : Instr} {s t : State} (h : Effect i s t) (hi : i ≠ .rfi) : t.pc = s.pc := by
  cases h with
  | ret _ hrfi => exact absurd hrfi hi
  | _ => rfl

theorem pc_issue_toNat (w : Word) (s : State) : (issue w s).pc.toNat = (s.pc.toNat + 4) % 2 ^ 32 :=
  BitVec.toNat_add _ _

/-- PC-relative addresses are the integer sum of R16, reduced modulo 2^32. -/
theorem addressPc_issue (imm22 : BitVec 22) (w : Word) (s : State) :
    addressPc imm22 (issue w s) = wrap (s.pc.toNat + 4 + imm22.toInt) := by
  have hpc : s.pc + 4#32 = BitVec.ofInt 32 (s.pc.toNat + 4) := by
    rw [BitVec.ofInt_add, BitVec.ofInt_natCast, BitVec.ofNat_toNat, BitVec.setWidth_eq]
    rfl
  calc addressPc imm22 (issue w s) = s.pc + 4#32 + BitVec.ofInt 32 imm22.toInt := rfl
    _ = wrap (s.pc.toNat + 4 + imm22.toInt) := by rw [hpc, ← BitVec.ofInt_add]; rfl

/-- Both linking instructions leave PC in the destination, in a delay slot too. -/
theorem exec_links {i : Instr} {s t : State}
    (hi : (∃ ra imm22, i = .jl ra imm22) ∨ ∃ ra rb rc cond, i = .brl ra rb rc cond) (h : exec i s = .next t) :
    ∃ ra, writtenReg i = some ra ∧ t.reg ra = s.pc := by
  obtain ⟨ra, imm22, rfl⟩ | ⟨ra, rb, rc, cond, rfl⟩ := hi
  · obtain ⟨-, a, -, rfl⟩ := delayedBranch_next h
    exact ⟨ra, rfl, State.setReg_reg_same s ra s.pc⟩
  · refine ⟨ra, rfl, ?_⟩
    by_cases hover : linkOverlaps ra rb rc cond = true ∧ s.config.brlOverlap = .refuse
    · cases (execBrl_of_refused hover).symm.trans h
    · have hbranch := (execBrl_of_accepted hover).symm.trans h
      rw [linkAndBranch_eq] at hbranch
      exact (branchIf_reg hbranch ra).trans (State.setReg_reg_same s ra s.pc)

/-- The decided MISALIGNED_PC loads a target as it stands, or not at all (R35). -/
theorem targetOf_refuse {c : Config} {a b : Word} (hc : c.misalignedPc = .refuse) (h : targetOf c a = some b) :
    b = a := by
  unfold targetOf at h
  rw [hc] at h
  split at h
  · exact (Option.some.inj h).symm
  · cases h

/-- A J or JL that completes under the decided MISALIGNED_PC has set its own target. -/
theorem exec_jump_bt {i : Instr} {s t : State} {imm22 : BitVec 22} (hi : i = .j imm22 ∨ ∃ ra, i = .jl ra imm22)
    (hc : s.config.misalignedPc = .refuse) (h : exec i s = .next t) : t.bt = some (addressPc imm22 s) := by
  obtain rfl | ⟨ra, rfl⟩ := hi
  · obtain ⟨-, a, ha, rfl⟩ := delayedBranch_next h
    exact congrArg some (targetOf_refuse hc ha)
  · obtain ⟨-, a, ha, rfl⟩ := delayedBranch_next h
    exact congrArg some (targetOf_refuse hc ha)

/-- The relative address is the same plain address to the issued state. -/
theorem plainData_issue {s : State} {imm22 : BitVec 22} {w : Word}
    (h : PlainData s (wrap (s.pc.toNat + 4 + imm22.toInt))) :
    PlainData (issue w s.sampled) (addressPc imm22 (issue w s.sampled)) := by
  rw [addressPc_issue]
  exact ⟨h.accepted, h.present, h.plain⟩

/-- A quiet step of LDR from plain memory loads the word at its address. -/
theorem step_ldr {s : State} {ra : Reg} {imm22 : BitVec 22} (hq : Quiet s) (hf : FetchesInstr s (.ldr ra imm22))
    (hp : PlainData s (wrap (s.pc.toNat + 4 + imm22.toInt))) :
    ∃ t, step s = .next t ∧ t.reg ra = s.dmem.word (wordIndex (wrap (s.pc.toNat + 4 + imm22.toInt))) := by
  obtain ⟨w, hstep⟩ := step_of_fetchesInstr hq hf
  have hplain := plainData_issue (w := w) hp
  have hexec : exec (.ldr ra imm22) (issue w s.sampled) = .next _ := loadWord_of_plain ra hplain
  refine ⟨_, hstep.trans (congrArg retireOutcome hexec), ?_⟩
  rw [retire_reg, State.setReg_reg_same, addressPc_issue]
  rfl

/-- A quiet step of STR to plain memory stores its register at its address. -/
theorem step_str {s : State} {ra : Reg} {imm22 : BitVec 22} (hwf : s.dmem.wf = true) (hq : Quiet s)
    (hf : FetchesInstr s (.str ra imm22)) (hp : PlainData s (wrap (s.pc.toNat + 4 + imm22.toInt))) :
    ∃ t, step s = .next t ∧ t.dmem.word (wordIndex (wrap (s.pc.toNat + 4 + imm22.toInt))) = s.reg ra := by
  obtain ⟨w, hstep⟩ := step_of_fetchesInstr hq hf
  have hplain := plainData_issue (w := w) hp
  have hexec : exec (.str ra imm22) (issue w s.sampled) = .next _ := storeWord_of_plain _ hplain
  refine ⟨_, hstep.trans (congrArg retireOutcome hexec), ?_⟩
  rw [retire_dmem, State.setDmem_dmem, addressPc_issue]
  exact (Memory.word_setWord _ _ _ _ hwf).trans (if_pos rfl)

end Sys2Proof.Machine

open Sys2Proof Sys2Proof.Machine

/-- Settles O33: every instruction executes on the issued state, whose PC is its own address + 4. -/
theorem currentPcIsTheInstructionsAddressPlusFour : Obligations.CurrentPcIsTheInstructionsAddressPlusFour := by
  refine ⟨fun s t i hq hf hi hbt h => ?_, fun s ra imm22 hq hf => ?_, fun s t i hq hf hi h => ?_,
    fun s t i imm22 hq hf hi hc h => ?_, fun s ra imm22 => step_ldr, fun s ra imm22 => step_str⟩
  · obtain ⟨w, u, hu, rfl⟩ := exec_of_step hq hf h
    have hslot : u.slot = none := (exec_effect hu).slot.trans hbt
    rw [retire_none hslot, (exec_effect hu).pc hi]
    exact pc_issue_toNat w s.sampled
  · obtain ⟨w, hstep⟩ := step_of_fetchesInstr hq hf
    refine ⟨_, hstep, ?_⟩
    rw [retire_reg, State.setReg_reg_same]
    exact addressPc_issue imm22 w s.sampled
  · obtain ⟨w, u, hu, rfl⟩ := exec_of_step hq hf h
    obtain ⟨ra, hw, hlink⟩ := exec_links hi hu
    refine ⟨ra, hw, ?_⟩
    rw [retire_reg, hlink]
    exact pc_issue_toNat w s.sampled
  · obtain ⟨w, u, hu, rfl⟩ := exec_of_step hq hf h
    rw [retire_bt, exec_jump_bt (s := issue w s.sampled) hi hc hu]
    exact congrArg some (addressPc_issue imm22 w s.sampled)

end

section
/-! IE: who writes it, and that no instruction looks at it (R46). -/

namespace Sys2Proof.Machine

/-- No effect touches IE but those of IEN, IDS and RFI. -/
theorem Effect.ie {i : Instr} {s t : State} (h : Effect i s t) (hien : i ≠ .ien) (hids : i ≠ .ids) (hrfi : i ≠ .rfi) :
    t.ie = s.ie := by
  cases h with
  | enable hi => exact absurd hi hien
  | disable hi => exact absurd hi hids
  | ret _ hi => exact absurd hi hrfi
  | _ => rfl

theorem exec_ie {i : Instr} {s t : State} (h : exec i s = .next t) :
    t.ie = (if i = .ien ∨ i = .rfi then true else if i = .ids then false else s.ie) := by
  cases i with
  | ien | ids => cases h; rfl
  | rfi =>
    obtain ⟨-, a, -, rfl⟩ := interruptReturn_next h
    rfl
  | _ => exact (exec_effect h).ie nofun nofun nofun

/-- The second state is the first but for IE. -/
def SameButIe (t u : State) : Prop := u = { t with ie := u.ie }

theorem SameButIe.retire {t u : State} (h : SameButIe t u) : SameButIe (retire t) (retire u) := by
  have heq : u = { t with ie := u.ie } := h
  have hslot : u.slot = t.slot := by rw [heq]
  cases ht : t.slot with
  | none => rwa [retire_none ht, retire_none (hslot.trans ht)]
  | some a =>
    rw [retire_some ht, retire_some (hslot.trans ht)]
    exact congrArg (fun v : State => { v with pc := a, slot := none }) heq

/-- The registers a BRL reads do not depend on IE. -/
theorem brlOperands_setIe (ra rb rc : Reg) (cond : Cond) (s : State) (b : Bool) (r : Reg) :
    (brlOperands ra rb rc cond (s.setIe b)).reg r = (brlOperands ra rb rc cond s).reg r := by
  unfold brlOperands
  rw [State.setIe_config]
  split <;> rfl

theorem exec_alike_setIe (i : Instr) (s : State) (b : Bool) : Alike SameButIe (exec i s) (exec i (s.setIe b)) := by
  cases i with
  | br => exact alike_branchIf rfl rfl rfl (fun _ => rfl) rfl (fun _ => rfl)
  | brl ra rb rc cond =>
    exact alike_execBrl rfl rfl (congrArg _ (brlOperands_setIe ra rb rc cond s b rc))
      (fun _ => brlOperands_setIe ra rb rc cond s b rb) rfl (fun _ => rfl)
  | j | jl => exact alike_delayedBranch rfl rfl (fun _ => rfl)
  | ld | ldr => exact alike_loadWord rfl rfl rfl rfl
  | st | str => exact alike_storeWord rfl rfl rfl rfl rfl
  | rfi => exact alike_interruptReturn rfl rfl rfl (fun _ => rfl)
  | _ => exact rfl

theorem runInstr_alike_setIe (s : State) (b : Bool) : Alike SameButIe (runInstr s) (runInstr (s.setIe b)) := by
  have hfetch : fetch (s.setIe b) = fetch s := rfl
  unfold runInstr
  rw [hfetch, State.setIe_config]
  cases fetch s with
  | misaligned => rfl
  | stuck => rfl
  | word w =>
    dsimp only
    cases decodeWord s.config w with
    | reserved r => rfl
    | instr i => exact (exec_alike_setIe i (issue w s) b).retireOutcome fun _ _ => SameButIe.retire

theorem step_alike_setIe {s : State} {b : Bool} (hb : boundary (s.setIe b) = boundary s) :
    Alike SameButIe (step s) (step (s.setIe b)) := by
  unfold step
  rw [hb]
  cases boundary s with
  | reset => rfl
  | entry => rfl
  | refuse => rfl
  | run => exact runInstr_alike_setIe s.sampled b

end Sys2Proof.Machine

open Sys2Proof Sys2Proof.Machine

/-- Settles O44: the writers by cases on the instruction's effect, the reader by running both states side by side. -/
theorem writersAndReaderOfIe : Obligations.WritersAndReaderOfIe := by
  refine ⟨fun i s t => exec_ie, fun s t h hb => ?_, fun s b => step_alike_setIe⟩
  obtain ⟨-, rfl⟩ | ⟨-, rfl⟩ | ⟨hrun, -⟩ := step_cases h
  · rfl
  · rfl
  · rcases hb with hb | hb <;> cases hrun.symm.trans hb

end

section
/-! The general registers an instruction reads and writes (R47): two runs from states that differ only in registers the
instruction does not read. -/

namespace Sys2Proof.Machine

/-- The state with another register file. -/
def State.setRegs (s : State) (rs : Vector Word 32) : State := { s with regs := rs }

/-- What R47 asks of next states `t`, `t'` of `i`, run from `s` and `s'`: they differ in registers only, agree on the
destination, and hold every other register as it was. -/
structure RegsKept (i : Instr) (s s' t t' : State) : Prop where
  rest : t' = { t with regs := t'.regs }
  written : ∀ r, writtenReg i = some r → t'.reg r = t.reg r
  others : ∀ r, writtenReg i ≠ some r → t.reg r = s.reg r ∧ t'.reg r = s'.reg r

variable {i : Instr} {s s' t t' : State}

theorem State.reg_of_regs (h : t.regs = s.regs) (r : Reg) : t.reg r = s.reg r := by
  unfold State.reg
  rw [h]

theorem RegsKept.of_noWrite (hi : writtenReg i = none) (ht : t' = { t with regs := t'.regs })
    (hs : t.regs = s.regs) (hs' : t'.regs = s'.regs) : RegsKept i s s' t t' :=
  ⟨ht, fun r hr => (by cases hi.symm.trans hr), fun r _ => ⟨State.reg_of_regs hs r, State.reg_of_regs hs' r⟩⟩

theorem RegsKept.of_setReg {ra : Reg} (hi : writtenReg i = some ra) (v : Word) (ht : t' = { t with regs := t'.regs })
    (hs : t.regs = s.regs) (hs' : t'.regs = s'.regs) :
    RegsKept i s s' (t.setReg ra v) (t'.setReg ra v) := by
  refine ⟨?_, fun r hr => ?_, fun r hr => ?_⟩
  · obtain ⟨rs, rfl⟩ : ∃ rs, t' = { t with regs := rs } := ⟨_, ht⟩
    rfl
  · obtain rfl : ra = r := Option.some.inj (hi.symm.trans hr)
    rw [State.setReg_reg_same, State.setReg_reg_same]
  · have hne : r ≠ ra := fun h => hr (h ▸ hi)
    rw [State.setReg_reg_ne t v hne, State.setReg_reg_ne t' v hne]
    exact ⟨State.reg_of_regs hs r, State.reg_of_regs hs' r⟩

theorem RegsKept.setBt (h : RegsKept i s s' t t') (b : Option Word) : RegsKept i s s' (t.setBt b) (t'.setBt b) :=
  ⟨congrArg (State.setBt · b) h.rest, h.written, h.others⟩

theorem addressM_congr {rb : Reg} {imm17 : BitVec 17} (h : rb ≠ absoluteBase → s'.reg rb = s.reg rb) :
    addressM rb imm17 s' = addressM rb imm17 s := by
  unfold addressM
  split
  · rfl
  · next hrb => rw [h hrb]

theorem regAmount_congr {rc : Reg} (h : s'.reg rc = s.reg rc) : regAmount s' rc = regAmount s rc := by
  rw [regAmount, regAmount, h]

/-- Where the sequential reading is set aside, a BRL reads the registers as they were. -/
theorem brlOperands_eq {ra rb rc : Reg} {cond : Cond}
    (h : linkOverlaps ra rb rc cond = true → s.config.brlOverlap ≠ .newValues) : brlOperands ra rb rc cond s = s :=
  if_neg fun hn => h hn.1 hn.2

section BranchReads

variable {rb rc : Reg} {cond : Cond} (hr : ∀ r ∈ branchReads s rb rc cond, s'.reg r = s.reg r)
include hr

theorem taken_of_branchReads (c : Config) : taken c cond (s'.reg rc) = taken c cond (s.reg rc) :=
  taken_congr fun htests => hr rc (by simp [branchReads, htests])

theorem target_of_branchReads (h : taken s.config cond (s.reg rc) = some true) : s'.reg rb = s.reg rb :=
  hr rb (by simp [branchReads, h])

end BranchReads

theorem alike_writeReg {rs : Vector Word 32} {ra : Reg} {v v' : Word} (hi : writtenReg i = some ra) (hv : v' = v) :
    Alike (RegsKept i s (s.setRegs rs)) (writeReg ra v s) (writeReg ra v' (s.setRegs rs)) := by
  subst hv
  exact RegsKept.of_setReg hi v' rfl rfl rfl

/-- What an instruction does depends on no register but those it reads. -/
theorem exec_alike_regs (i : Instr) (s : State) (rs : Vector Word 32)
    (hr : ∀ r ∈ readRegs s i, (s.setRegs rs).reg r = s.reg r)
    (hnew : overlappingBrl i = true → s.config.brlOverlap ≠ .newValues) :
    Alike (RegsKept i s (s.setRegs rs)) (exec i s) (exec i (s.setRegs rs)) := by
  cases i with
  | movi | movi2 | lea => exact alike_writeReg rfl rfl
  | addi _ rb | addi2 _ rb | ori _ rb | ori2 _ rb | andi _ rb | andi2 _ rb | asr _ rb | lsr _ rb | shl _ rb | ror _ rb =>
    have hb := hr rb (by simp [readRegs])
    exact alike_writeReg rfl (by rw [hb])
  | not _ rc | neg _ rc =>
    have hc := hr rc (by simp [readRegs])
    exact alike_writeReg rfl (by rw [hc])
  | add _ rb rc | sub _ rb rc | or _ rb rc | and _ rb rc | xor _ rb rc =>
    have hb := hr rb (by simp [readRegs])
    have hc := hr rc (by simp [readRegs])
    exact alike_writeReg rfl (by rw [hb, hc])
  | asrR _ rb rc | lsrR _ rb rc | shlR _ rb rc | rorR _ rb rc =>
    have hb := hr rb (by simp [readRegs])
    have hc := hr rc (by simp [readRegs])
    exact alike_writeReg rfl (by rw [hb, regAmount_congr hc])
  | br rb rc cond =>
    exact alike_branchIf rfl rfl (taken_of_branchReads hr _) (target_of_branchReads hr)
      (.of_noWrite rfl rfl rfl rfl) fun _ => .of_noWrite rfl rfl rfl rfl
  | brl ra rb rc cond =>
    have hlink : RegsKept (.brl ra rb rc cond) s (s.setRegs rs) (s.setReg ra s.pc) ((s.setRegs rs).setReg ra s.pc) :=
      .of_setReg rfl s.pc rfl rfl rfl
    have hold := brlOperands_eq (s := s) hnew
    have hold' := brlOperands_eq (s := s.setRegs rs) hnew
    refine alike_execBrl rfl rfl ?_ ?_ hlink fun a => hlink.setBt (some a)
    · rw [hold, hold']
      exact taken_of_branchReads hr _
    · rw [hold, hold']
      exact target_of_branchReads hr
  | j => exact alike_delayedBranch rfl rfl fun _ => .of_noWrite rfl rfl rfl rfl
  | jl ra =>
    exact alike_delayedBranch rfl rfl fun a =>
      (RegsKept.of_setReg rfl s.pc rfl rfl rfl).setBt (some a)
  | ld ra rb imm17 =>
    have hea : addressM rb imm17 (s.setRegs rs) = addressM rb imm17 s :=
      addressM_congr fun hb => hr rb (by simp [readRegs, hb])
    exact alike_loadWord rfl hea (.of_setReg rfl _ rfl rfl rfl) (.of_setReg rfl _ rfl rfl rfl)
  | ldr => exact alike_loadWord rfl rfl (.of_setReg rfl _ rfl rfl rfl) (.of_setReg rfl _ rfl rfl rfl)
  | st ra rb imm17 =>
    have hea : addressM rb imm17 (s.setRegs rs) = addressM rb imm17 s :=
      addressM_congr fun hb => hr rb (by simp [readRegs, hb])
    have hv := hr ra (by by_cases hb : rb = absoluteBase <;> simp [readRegs, hb])
    exact alike_storeWord rfl hea hv (.of_noWrite rfl rfl rfl rfl) (.of_noWrite rfl rfl rfl rfl)
  | str ra =>
    exact alike_storeWord rfl rfl (hr ra (by simp [readRegs])) (.of_noWrite rfl rfl rfl rfl)
      (.of_noWrite rfl rfl rfl rfl)
  | ien | ids => exact RegsKept.of_noWrite rfl rfl rfl rfl
  | rfi =>
    exact alike_interruptReturn rfl rfl (hr ipc (by simp [readRegs])) fun _ =>
      .of_noWrite rfl rfl rfl rfl

/-- Interrupt entry writes x[31] alone (R266). -/
theorem entry_step_reg (hb : boundary s = .entry) (h : step s = .next t) {r : Reg} (hr : r ≠ 31#5) :
    t.reg r = s.reg r := by
  obtain ⟨hreset, -⟩ | ⟨-, rfl⟩ | ⟨hrun, -⟩ := step_cases h
  · cases hb.symm.trans hreset
  · exact (interruptEntry_reg s.sampled r).trans (if_neg hr)
  · cases hb.symm.trans hrun

end Sys2Proof.Machine

open Sys2Proof Sys2Proof.Machine

/-- Settles O46: both runs side by side, instruction by instruction. -/
theorem registersReadAndWritten : Obligations.RegistersReadAndWritten := by
  refine ⟨fun i s s' hs hr hnew => ?_, fun s t hb h r => entry_step_reg hb h⟩
  obtain ⟨rs, rfl⟩ : ∃ rs, s' = s.setRegs rs := ⟨_, hs⟩
  exact (exec_alike_regs i s rs hr hnew).imp fun _ _ hk => ⟨hk.rest, hk.written, hk.others⟩

end

section
/-! Who reads and writes the two memories (R61, R62): program memory is left to the fetch, and data memory changes only
where a store writes. -/

namespace Sys2Proof.Machine

/-- The second state is the first but for program memory. -/
def SameButPmem (t u : State) : Prop := u = { t with pmem := u.pmem }

/-- The registers a BRL reads do not depend on program memory. -/
theorem brlOperands_pmem (ra rb rc : Reg) (cond : Cond) (s : State) (m : Memory) (r : Reg) :
    (brlOperands ra rb rc cond { s with pmem := m }).reg r = (brlOperands ra rb rc cond s).reg r := by
  unfold brlOperands
  dsimp only
  split <;> rfl

/-- What an instruction does depends on no word of program memory, LDR's included (D16). -/
theorem exec_alike_pmem (i : Instr) (s : State) (m : Memory) :
    Alike SameButPmem (exec i s) (exec i { s with pmem := m }) := by
  cases i with
  | br => exact alike_branchIf rfl rfl rfl (fun _ => rfl) rfl (fun _ => rfl)
  | brl ra rb rc cond =>
    exact alike_execBrl rfl rfl (congrArg _ (brlOperands_pmem ra rb rc cond s m rc))
      (fun _ => brlOperands_pmem ra rb rc cond s m rb) rfl (fun _ => rfl)
  | j | jl => exact alike_delayedBranch rfl rfl (fun _ => rfl)
  | ld | ldr => exact alike_loadWord rfl rfl rfl rfl
  | st | str => exact alike_storeWord rfl rfl rfl rfl rfl
  | rfi => exact alike_interruptReturn rfl rfl rfl (fun _ => rfl)
  | _ => exact rfl

theorem step_pmem {s t : State} (h : step s = .next t) : t.pmem = s.pmem := by
  obtain ⟨-, rfl⟩ | ⟨-, rfl⟩ | ⟨-, w, i, u, -, -, hu, rfl⟩ := step_cases h
  · rfl
  · rfl
  · exact (retire_pmem u).trans (exec_effect hu).pmem

/-- Data memory is kept, or one word is put at the address the instruction stores to. -/
theorem Effect.dmem {i : Instr} {s t : State} (h : Effect i s t) :
    t.dmem = s.dmem ∨ ∃ ea v, storeAddress s i = some ea ∧ t.dmem = s.dmem.setWord (wordIndex ea) v := by
  cases h with
  | store ea v hea => exact .inr ⟨ea, v, hea, rfl⟩
  | _ => exact .inl rfl

/-- A data word that an instruction changes is the word it stores to. -/
theorem Effect.dataWord_changed {i : Instr} {s t : State} (h : Effect i s t) (hwf : s.dmem.wf = true) {k : WordIndex}
    (hk : t.dataWord k ≠ s.dataWord k) : ∃ ea, storeAddress s i = some ea ∧ k = wordIndex ea := by
  obtain hsame | ⟨ea, v, hea, hset⟩ := h.dmem
  · exact absurd (congrArg (Memory.word · k) hsame) hk
  · refine ⟨ea, hea, Classical.byContradiction fun hne => hk ?_⟩
    calc t.dmem.word k = (s.dmem.setWord (wordIndex ea) v).word k := congrArg (Memory.word · k) hset
      _ = s.dmem.word k := (Memory.word_setWord _ _ _ _ hwf).trans (if_neg hne)

/-- Only ST and STR have a store address. -/
theorem isStore_of_storeAddress {i : Instr} {s : State} {ea : Word} (h : storeAddress s i = some ea) :
    (∃ ra rb imm17, i = .st ra rb imm17) ∨ ∃ ra imm22, i = .str ra imm22 := by
  cases i with
  | st ra rb imm17 => exact .inl ⟨ra, rb, imm17, rfl⟩
  | str ra imm22 => exact .inr ⟨ra, imm22, rfl⟩
  | _ => cases h

/-- RST and an interrupt entry keep data memory (D33), so a step that changes it ran a store. -/
theorem step_dmem_changed {s t : State} (h : step s = .next t) (hne : t.dmem ≠ s.dmem) :
    ∃ i, FetchesInstr s i ∧ ((∃ ra rb imm17, i = .st ra rb imm17) ∨ ∃ ra imm22, i = .str ra imm22) := by
  obtain ⟨-, rfl⟩ | ⟨-, rfl⟩ | ⟨-, w, i, u, hw, hi, hu, rfl⟩ := step_cases h
  · exact absurd rfl hne
  · exact absurd rfl hne
  · have hfetches : Fetches s.sampled w := fetches_of_fetch hw
    refine ⟨i, ⟨w, ⟨hfetches.aligned, hfetches.present, hfetches.word⟩, hi⟩, ?_⟩
    obtain hsame | ⟨ea, v, hea, -⟩ := (exec_effect hu).dmem
    · exact absurd ((retire_dmem u).trans hsame) hne
    · exact isStore_of_storeAddress hea

end Sys2Proof.Machine

open Sys2Proof Sys2Proof.Machine

/-- Settles O31: program memory by running both states side by side, data memory by cases on the instruction's effect. -/
theorem onlyStoresChangeMemory : Obligations.OnlyStoresChangeMemory :=
  ⟨fun _ ha hp => fetch_of_fetches ⟨.inr ha, hp, rfl⟩, exec_alike_pmem, fun _ _ => step_pmem,
    fun _ _ _ hwf h _ => (exec_effect h).dataWord_changed hwf, fun _ _ => step_dmem_changed⟩

end

section
/-! The register ALU formats (R94, R95): what the decoder reads of their words, and from that, for every opcode of the
format, the rule `BinaryRule` or `UnaryRule` of its instruction. -/

namespace Sys2Proof.Machine

open Sys2Proof.Laws (opOf_encodeR3)

/-! ## Words of the formats -/

theorem raOf_encodeR3 (op : BitVec 5) (ra rb rc : Reg) : raOf (encodeR3 op ra rb rc) = ra := by
  simp [raOf, encodeR3, field_or, field_place_same, field_place_apart]

theorem rbOf_encodeR3 (op : BitVec 5) (ra rb rc : Reg) : rbOf (encodeR3 op ra rb rc) = rb := by
  simp [rbOf, encodeR3, field_or, field_place_same, field_place_apart]

theorem rcOf_encodeR3 (op : BitVec 5) (ra rb rc : Reg) : rcOf (encodeR3 op ra rb rc) = rc := by
  simp [rcOf, encodeR3, field_or, field_place_same, field_place_apart]

/-- Format R2 is format R3 with zeros for rb (R95). -/
theorem encodeR3_rb_zero (op : BitVec 5) (ra rc : Reg) :
    encodeR3 op ra 0#5 rc = place op 27 ||| place ra 22 ||| place rc 12 := by
  have hzero : place 0#5 17 = 0#32 := rfl
  rw [encodeR3, hzero, BitVec.or_zero]

/-- Format R3 uses bits 31..12. -/
theorem encodeR3_and_unused (op : BitVec 5) (ra rb rc : Reg) : encodeR3 op ra rb rc &&& 0x00000FFF#32 = 0#32 := by
  simp (disch := decide) [encodeR3, or_and_mask, place_and_mask]

/-- Format R2 leaves the bits of rb unused too. -/
theorem encodeR3_rb_zero_and_unused (op : BitVec 5) (ra rc : Reg) :
    encodeR3 op ra 0#5 rc &&& 0x003E0FFF#32 = 0#32 := by
  rw [encodeR3_rb_zero]
  simp (disch := decide) [or_and_mask, place_and_mask]

/-! ## Rules from the opcode map and the meaning -/

/-- A format-R3 opcode whose instruction writes `f` of its two operands. -/
theorem binaryRule_of_opcode {op : BitVec 5} {mk : Reg → Reg → Reg → Instr} {f : Word → Word → Word}
    (hfields : ∀ c w, opOf w = op → decodeFields c w = .instr (mk (raOf w) (rbOf w) (rcOf w)))
    (hunused : ∀ w, opOf w = op → unusedMask w = 0x00000FFF#32)
    (hexec : ∀ ra rb rc s, exec (mk ra rb rc) s = writeReg ra (f (s.reg rb) (s.reg rc)) s) :
    BinaryRule (place op 27) mk f := by
  intro c ra rb rc s
  have hop : opOf (encodeR3 op ra rb rc) = op := opOf_encodeR3 op ra rb rc
  have hread : decodeFields c (encodeR3 op ra rb rc) = .instr (mk ra rb rc) := by
    rw [hfields c _ hop, raOf_encodeR3, rbOf_encodeR3, rcOf_encodeR3]
  have hclear : encodeR3 op ra rb rc &&& unusedMask (encodeR3 op ra rb rc) = 0#32 := by
    rw [hunused _ hop, encodeR3_and_unused]
  exact ⟨decodeWord_of_fields hread hclear, writes_of_writeReg (hexec ra rb rc s)⟩

/-- A format-R2 opcode whose instruction writes `f` of its operand. -/
theorem unaryRule_of_opcode {op : BitVec 5} {mk : Reg → Reg → Instr} {f : Word → Word}
    (hfields : ∀ c w, opOf w = op → decodeFields c w = .instr (mk (raOf w) (rcOf w)))
    (hunused : ∀ w, opOf w = op → unusedMask w = 0x003E0FFF#32)
    (hexec : ∀ ra rc s, exec (mk ra rc) s = writeReg ra (f (s.reg rc)) s) :
    UnaryRule (place op 27) mk f := by
  intro c ra rc s
  have hop : opOf (encodeR3 op ra 0#5 rc) = op := opOf_encodeR3 op ra 0#5 rc
  have hread : decodeFields c (encodeR3 op ra 0#5 rc) = .instr (mk ra rc) := by
    rw [hfields c _ hop, raOf_encodeR3, rcOf_encodeR3]
  have hclear : encodeR3 op ra 0#5 rc &&& unusedMask (encodeR3 op ra 0#5 rc) = 0#32 := by
    rw [hunused _ hop, encodeR3_rb_zero_and_unused]
  rw [← encodeR3_rb_zero]
  exact ⟨decodeWord_of_fields hread hclear, writes_of_writeReg (hexec ra rc s)⟩

/-! ## NOT, OR, AND, XOR -/

theorem unaryRule_not : UnaryRule (place 10#5 27) .not (fun c => ~~~ c) :=
  unaryRule_of_opcode (fun c w h => by simp [decodeFields, h]) (fun w h => by simp [unusedMask, h]) fun _ _ _ => rfl

theorem binaryRule_or : BinaryRule (place 12#5 27) .or (fun b c => b ||| c) :=
  binaryRule_of_opcode (fun c w h => by simp [decodeFields, h]) (fun w h => by simp [unusedMask, h]) fun _ _ _ _ => rfl

theorem binaryRule_and : BinaryRule (place 13#5 27) .and (fun b c => b &&& c) :=
  binaryRule_of_opcode (fun c w h => by simp [decodeFields, h]) (fun w h => by simp [unusedMask, h]) fun _ _ _ _ => rfl

theorem binaryRule_xor : BinaryRule (place 14#5 27) .xor (fun b c => b ^^^ c) :=
  binaryRule_of_opcode (fun c w h => by simp [decodeFields, h]) (fun w h => by simp [unusedMask, h]) fun _ _ _ _ => rfl

end Sys2Proof.Machine

open Sys2Proof Sys2Proof.Machine

/-- Settles O15: the four rules above, at the base words of opcodes 10, 12, 13 and 14. -/
theorem bitwiseResults : Obligations.BitwiseResults :=
  ⟨unaryRule_not, binaryRule_or, binaryRule_and, binaryRule_xor⟩

end

section
/-! The shift format (R96): what the decoder reads of its two words, with an immediate and with a register amount, and
from that, for every opcode of the format, the rule `ShiftRule` of its instructions. The two logical shifts follow, by
the arithmetic of R173 and R174. -/

namespace Sys2Proof.Machine

open Sys2Proof.Laws (opOf_encodeSH iOf_encodeSH)

/-! ## Words of the format -/

theorem raOf_encodeSH (op : BitVec 5) (ra rb rc : Reg) (i : BitVec 1) (shamt : BitVec 5) :
    raOf (encodeSH op ra rb rc i shamt) = ra := by
  simp [raOf, encodeSH, field_or, field_place_same, field_place_apart]

theorem rbOf_encodeSH (op : BitVec 5) (ra rb rc : Reg) (i : BitVec 1) (shamt : BitVec 5) :
    rbOf (encodeSH op ra rb rc i shamt) = rb := by
  simp [rbOf, encodeSH, field_or, field_place_same, field_place_apart]

theorem rcOf_encodeSH (op : BitVec 5) (ra rb rc : Reg) (i : BitVec 1) (shamt : BitVec 5) :
    rcOf (encodeSH op ra rb rc i shamt) = rc := by
  simp [rcOf, encodeSH, field_or, field_place_same, field_place_apart]

theorem shamtOf_encodeSH (op : BitVec 5) (ra rb rc : Reg) (i : BitVec 1) (shamt : BitVec 5) :
    shamtOf (encodeSH op ra rb rc i shamt) = shamt := by
  simp [shamtOf, encodeSH, field_or, field_place_same, field_place_apart]

/-- The word of an immediate amount: zeros for rc and i. -/
theorem encodeSH_imm (op : BitVec 5) (ra rb : Reg) (shamt : BitVec 5) :
    encodeSH op ra rb 0#5 0#1 shamt = place op 27 ||| place ra 22 ||| place rb 17 ||| place shamt 0 := by
  have hrc : place 0#5 12 = 0#32 := rfl
  have hi : place 0#1 5 = 0#32 := rfl
  rw [encodeSH, hrc, hi, BitVec.or_zero, BitVec.or_zero]

/-- The word of a register amount: i is bit 5, and zeros for shamt. -/
theorem encodeSH_reg (op : BitVec 5) (ra rb rc : Reg) :
    encodeSH op ra rb rc 1#1 0#5 = place op 27 ||| 0x20#32 ||| place ra 22 ||| place rb 17 ||| place rc 12 := by
  have hi : place 1#1 5 = 0x20#32 := rfl
  have hshamt : place 0#5 0 = 0#32 := rfl
  rw [encodeSH, hi, hshamt, BitVec.or_zero]
  generalize place op 27 = o, place ra 22 = a, place rb 17 = b, place rc 12 = c
  ac_rfl

/-- An immediate amount leaves the bits of rc unused. -/
theorem encodeSH_imm_and_unused (op : BitVec 5) (ra rb : Reg) (shamt : BitVec 5) :
    encodeSH op ra rb 0#5 0#1 shamt &&& 0x0001FFC0#32 = 0#32 := by
  rw [encodeSH_imm]
  simp (disch := decide) [or_and_mask, place_and_mask]

/-- A register amount leaves the bits of shamt unused. -/
theorem encodeSH_reg_and_unused (op : BitVec 5) (ra rb rc : Reg) :
    encodeSH op ra rb rc 1#1 0#5 &&& 0x00000FDF#32 = 0#32 := by
  rw [encodeSH_reg]
  simp (disch := decide) [or_and_mask, place_and_mask]

/-! ## The rule from the opcode map and the meaning -/

/-- A shift opcode, whose i bit chooses between two instructions that write `f` of the operand and the amount. -/
theorem shiftRule_of_opcode {op : BitVec 5} {mkImm mkReg : Reg → Reg → BitVec 5 → Instr}
    {f : Word → BitVec 5 → Word}
    (hfields : ∀ c w, opOf w = op → decodeFields c w = .instr
      (if iOf w = 0#1 then mkImm (raOf w) (rbOf w) (shamtOf w) else mkReg (raOf w) (rbOf w) (rcOf w)))
    (hunused : ∀ w, opOf w = op → unusedMask w = if iOf w = 0#1 then 0x0001FFC0#32 else 0x00000FDF#32)
    (himm : ∀ ra rb shamt s, exec (mkImm ra rb shamt) s = writeReg ra (f (s.reg rb) shamt) s)
    (hreg : ∀ ra rb rc s, exec (mkReg ra rb rc) s = writeReg ra (f (s.reg rb) (regAmount s rc)) s) :
    ShiftRule (place op 27) mkImm mkReg f := by
  intro c ra rb rc shamt s
  have hdecodeImm : decodeWord c (encodeSH op ra rb 0#5 0#1 shamt) = .instr (mkImm ra rb shamt) := by
    have hop := opOf_encodeSH op ra rb 0#5 0#1 shamt
    have hi := iOf_encodeSH op ra rb 0#5 0#1 shamt
    apply decodeWord_of_fields
    · rw [hfields c _ hop, if_pos hi, raOf_encodeSH, rbOf_encodeSH, shamtOf_encodeSH]
    · rw [hunused _ hop, if_pos hi, encodeSH_imm_and_unused]
  have hdecodeReg : decodeWord c (encodeSH op ra rb rc 1#1 0#5) = .instr (mkReg ra rb rc) := by
    have hop := opOf_encodeSH op ra rb rc 1#1 0#5
    have hi : iOf (encodeSH op ra rb rc 1#1 0#5) ≠ 0#1 := by rw [iOf_encodeSH]; decide
    apply decodeWord_of_fields
    · rw [hfields c _ hop, if_neg hi, raOf_encodeSH, rbOf_encodeSH, rcOf_encodeSH]
    · rw [hunused _ hop, if_neg hi, encodeSH_reg_and_unused]
  rw [← encodeSH_imm, ← encodeSH_reg]
  exact ⟨hdecodeImm, writes_of_writeReg (himm ra rb shamt s), hdecodeReg, writes_of_writeReg (hreg ra rb rc s)⟩

/-! ## LSR and SHL -/

theorem lsr32_eq_div (v : Word) (n : BitVec 5) : lsr32 v n = BitVec.ofNat 32 (v.toNat / 2 ^ n.toNat) := by
  apply BitVec.eq_of_toNat_eq
  have hquot : v.toNat / 2 ^ n.toNat < 2 ^ 32 := Nat.lt_of_le_of_lt (Nat.div_le_self ..) v.isLt
  rw [lsr32, BitVec.toNat_ushiftRight, Nat.shiftRight_eq_div_pow, BitVec.toNat_ofNat, Nat.mod_eq_of_lt hquot]

theorem shl32_eq_mul (v : Word) (n : BitVec 5) : shl32 v n = BitVec.ofNat 32 (v.toNat * 2 ^ n.toNat) := by
  apply BitVec.eq_of_toNat_eq
  rw [shl32, BitVec.toNat_shiftLeft, Nat.shiftLeft_eq, BitVec.toNat_ofNat]

theorem shiftRule_lsr : ShiftRule (place 16#5 27) .lsr .lsrR lsr32 :=
  shiftRule_of_opcode (fun c w h => by simp [decodeFields, h]) (fun w h => by simp [unusedMask, h])
    (fun _ _ _ _ => rfl) fun _ _ _ _ => rfl

theorem shiftRule_shl : ShiftRule (place 17#5 27) .shl .shlR shl32 :=
  shiftRule_of_opcode (fun c w h => by simp [decodeFields, h]) (fun w h => by simp [unusedMask, h])
    (fun _ _ _ _ => rfl) fun _ _ _ _ => rfl

end Sys2Proof.Machine

open Sys2Proof Sys2Proof.Machine

/-- Settles O16: the rules of the two shift functions, which are the quotient and the product. -/
theorem logicalShiftResults : Obligations.LogicalShiftResults := by
  unfold Obligations.LogicalShiftResults
  simp only [← lsr32_eq_div, ← shl32_eq_mul]
  exact ⟨shiftRule_lsr, shiftRule_shl⟩

end

section
/-! A quiet step with and without a pending branch (R42 steps C5 to C7, R191): the two halves of a delayed branch. -/

namespace Sys2Proof.Machine

/-- A quiet step that goes on has fetched one instruction, executed it on the issued state and retired it. -/
theorem fetches_of_quiet_step {s t : State} (hq : Quiet s) (h : step s = .next t) :
    ∃ w i u, Fetches s w ∧ decodeWord s.config w = .instr i ∧ exec i (issue w s.sampled) = .next u ∧ t = retire u := by
  have hrun := boundary_of_quiet hq
  obtain ⟨hreset, -⟩ | ⟨hentry, -⟩ | ⟨-, w, i, u, hw, hi, hu, ht⟩ := step_cases h
  · cases hrun.symm.trans hreset
  · cases hrun.symm.trans hentry
  · have hfetches : Fetches s.sampled w := fetches_of_fetch hw
    exact ⟨w, i, u, ⟨hfetches.aligned, hfetches.present, hfetches.word⟩, hi, hu, ht⟩

theorem fetchesInstr_unique {s : State} {i j : Instr} (hi : FetchesInstr s i) (hj : FetchesInstr s j) : i = j := by
  obtain ⟨w, hw, hwi⟩ := hi
  obtain ⟨w', hw', hwj⟩ := hj
  obtain rfl : w = w' := hw.word.symm.trans hw'.word
  exact Decoded.instr.inj (hwi.symm.trans hwj)

/-- In a delay slot no instruction makes a branch pending (R201). -/
theorem Effect.bt_of_slot {i : Instr} {s t : State} {target : Word} (h : Effect i s t) (hs : s.slot = some target) :
    t.bt = s.bt := by
  cases h with
  | branch _ hnone | linkBranch _ _ _ hnone => cases hs.symm.trans hnone
  | _ => rfl

theorem quiet_step_slot {s t : State} (hq : Quiet s) (h : step s = .next t) : t.slot = none := by
  obtain ⟨w, i, u, -, -, -, rfl⟩ := fetches_of_quiet_step hq h
  exact retire_slot u

/-- IR keeps the word that the step executed (R36). -/
theorem quiet_step_ir {s t : State} (hq : Quiet s) (h : step s = .next t) :
    t.ir = s.pmem.word (wordIndex s.pc) := by
  obtain ⟨w, i, u, hw, -, hu, rfl⟩ := fetches_of_quiet_step hq h
  calc (retire u).ir = u.ir := retire_ir u
    _ = w := (exec_effect hu).ir
    _ = s.pmem.word (wordIndex s.pc) := hw.word.symm

/-- With no branch pending, control passes to the next word, unless RFI moves it at once (R32, R252). -/
theorem quiet_step_pc_of_no_branch {s t : State} (hq : Quiet s) (h : step s = .next t) (hbt : s.bt = none)
    (hrfi : ¬ FetchesInstr s .rfi) : t.pc = s.pc + 4#32 := by
  obtain ⟨w, i, u, hw, hi, hu, rfl⟩ := fetches_of_quiet_step hq h
  have hne : i ≠ .rfi := fun heq => hrfi ⟨w, hw, heq ▸ hi⟩
  have hslot : u.slot = none := (exec_effect hu).slot.trans hbt
  rw [retire_none hslot]
  exact (exec_effect hu).pc hne

/-- With a branch pending, the step executes its delay slot: control is then at the target, and nothing is pending. -/
theorem quiet_step_of_branch {s t : State} {target : Word} (hq : Quiet s) (h : step s = .next t)
    (hbt : s.bt = some target) : t.pc = target ∧ t.bt = none := by
  obtain ⟨w, i, u, -, -, hu, rfl⟩ := fetches_of_quiet_step hq h
  have hissued : (issue w s.sampled).slot = some target := hbt
  have hslot : u.slot = some target := (exec_effect hu).slot.trans hissued
  have hnone : u.bt = none := (exec_effect hu).bt_of_slot hissued
  exact ⟨by rw [retire_pc, hslot, Option.getD_some], (retire_bt u).trans hnone⟩

end Sys2Proof.Machine

open Sys2Proof Sys2Proof.Machine

/-- Settles O34: the branch's own step passes control to the next word, and the step after it executes that word with
the branch pending or not. -/
theorem delaySlotExecutesThenControlIsAtTheTarget : Obligations.DelaySlotExecutesThenControlIsAtTheTarget := by
  intro s t u i hs ht hi hdelay hbt hst htu
  have hbranch : ¬ FetchesInstr s .rfi := by
    intro hrfi
    obtain rfl := fetchesInstr_unique hi hrfi
    cases hdelay
  have hpc : t.pc = s.pc + 4#32 := quiet_step_pc_of_no_branch hs hst hbt hbranch
  refine ⟨hpc, quiet_step_slot hs hst, hpc ▸ quiet_step_ir ht htu, quiet_step_slot ht htu,
    fun target => quiet_step_of_branch ht htu, fun hnone hrfi => ?_⟩
  calc u.pc = t.pc + 4#32 := quiet_step_pc_of_no_branch ht htu hnone hrfi
    _ = s.pc + 4#32 + 4#32 := by rw [hpc]
    _ = s.pc + 8#32 := BitVec.add_assoc _ _ _

end

section
/-! The invariant between two steps (R35, R42): each of its clauses through one effect, one retirement and one step. -/

namespace Sys2Proof.Machine

/-! ## Multiples of 4 -/

theorem isAligned_iff (a : Word) : isAligned a = true ↔ a.toNat % 4 = 0 := by
  simp [isAligned, ← BitVec.toNat_inj]

theorem isAligned_add_four {a : Word} (h : isAligned a = true) : isAligned (a + 4#32) = true := by
  rw [isAligned_iff] at h ⊢
  bv_omega

theorem alignedUnlessKept_add_four {c : Config} {a : Word} (h : AlignedUnlessKept c a) :
    AlignedUnlessKept c (a + 4#32) :=
  h.imp_right isAligned_add_four

/-! ## One instruction -/

/-- RFI alone writes PC, and only with an accepted target (R35). -/
theorem Effect.pc_aligned {i : Instr} {s t : State} (h : Effect i s t) (hpc : AlignedUnlessKept s.config s.pc) :
    AlignedUnlessKept s.config t.pc := by
  cases h with
  | ret _ _ _ ha => exact ha
  | _ => exact hpc

/-- A branch that an instruction leaves pending has an accepted target (R35). -/
theorem Effect.bt_aligned {i : Instr} {s t : State} {target : Word} (h : Effect i s t) (hbt : s.bt = none)
    (ht : t.bt = some target) : AlignedUnlessKept s.config target := by
  cases h with
  | branch a _ ha | linkBranch _ a _ _ ha =>
    obtain rfl : a = target := Option.some.inj ht
    exact ha
  | _ => cases hbt.symm.trans ht

theorem Effect.dmem_wf {i : Instr} {s t : State} (h : Effect i s t) (hwf : s.dmem.wf = true) : t.dmem.wf = true := by
  obtain hsame | ⟨ea, v, -, hset⟩ := h.dmem
  · rw [hsame, hwf]
  · rw [hset, Memory.setWord_wf _ _ _ hwf]

/-- C7: the target that moves into PC was a pending one. -/
theorem retire_pc_aligned {c : Config} {u : State} (hpc : AlignedUnlessKept c u.pc)
    (hslot : ∀ target, u.slot = some target → AlignedUnlessKept c target) : AlignedUnlessKept c (retire u).pc := by
  rw [retire_pc]
  cases hs : u.slot with
  | none => exact hpc
  | some target => exact hslot target hs

/-! ## One step -/

theorem resetEvent_inv {s : State} (h : s.Inv) : (resetEvent s).Inv where
  pc_aligned := .inr rfl
  bt_aligned := nofun
  no_slot := rfl
  pmem_wf := h.pmem_wf
  dmem_wf := h.dmem_wf

/-- INT_VECTOR is a multiple of 4 (R268). -/
theorem interruptEntry_inv {s : State} (h : s.Inv) : (interruptEntry s).Inv where
  pc_aligned := .inr (isAligned_addressOf _)
  bt_aligned := h.bt_aligned
  no_slot := h.no_slot
  pmem_wf := h.pmem_wf
  dmem_wf := h.dmem_wf

theorem sampled_inv {s : State} (h : s.Inv) : s.sampled.Inv :=
  ⟨h.pc_aligned, h.bt_aligned, h.no_slot, h.pmem_wf, h.dmem_wf⟩

theorem retire_exec_inv {s u : State} {w : Word} {i : Instr} (h : s.Inv) (hu : exec i (issue w s) = .next u) :
    (retire u).Inv := by
  have heff := exec_effect hu
  have hconfig : (retire u).config = s.config := (retire_config u).trans heff.config
  refine ⟨?_, fun target ht => ?_, retire_slot u, ?_, ?_⟩
  · rw [hconfig]
    exact retire_pc_aligned (heff.pc_aligned (alignedUnlessKept_add_four h.pc_aligned))
      fun target ht => h.bt_aligned target (heff.slot.symm.trans ht)
  · rw [hconfig]
    exact heff.bt_aligned rfl ((retire_bt u).symm.trans ht)
  · rw [retire_pmem, heff.pmem]
    exact h.pmem_wf
  · rw [retire_dmem]
    exact heff.dmem_wf h.dmem_wf

theorem step_inv {s t : State} (h : s.Inv) (hst : step s = .next t) : t.Inv := by
  obtain ⟨-, rfl⟩ | ⟨-, rfl⟩ | ⟨-, w, i, u, -, -, hu, rfl⟩ := step_cases hst
  · exact resetEvent_inv (sampled_inv h)
  · exact interruptEntry_inv (sampled_inv h)
  · exact retire_exec_inv (sampled_inv h) hu

theorem step_config {s t : State} (h : step s = .next t) : t.config = s.config := by
  obtain ⟨-, rfl⟩ | ⟨-, rfl⟩ | ⟨-, w, i, u, -, -, hu, rfl⟩ := step_cases h
  · rfl
  · rfl
  · exact (retire_config u).trans (exec_effect hu).config

end Sys2Proof.Machine

open Sys2Proof Sys2Proof.Machine

/-- Settles O50: the invariant through each of the three kinds of step. -/
theorem everyStepKeepsTheInvariant : Obligations.EveryStepKeepsTheInvariant :=
  fun _ _ hinv hst => ⟨step_inv hinv hst, step_config hst⟩

/-- Settles O49: PC is 0, nothing is pending and nothing is listed in either memory. -/
theorem resetStateMeetsTheInvariant : Obligations.ResetStateMeetsTheInvariant :=
  ⟨.inr rfl, nofun, rfl, rfl, rfl⟩

/-- Settles O37: the three fields of `State.reset`. -/
theorem resetLeavesPcAndIeZero : Obligations.ResetLeavesPcAndIeZero :=
  ⟨rfl, rfl, rfl⟩

end

section
/-! The encoder's words (R92 to R106): what each field of each format reads, that no unused bit is set, and from both
that the decoder gives the instruction back. -/

namespace Sys2Proof

open Sys2Proof.Machine Sys2Proof.Laws

/-! ## Fields of the formats -/

theorem raOf_encodeI1 (op : BitVec 5) (ra rb : Reg) (imm17 : BitVec 17) : raOf (encodeI1 op ra rb imm17) = ra := by
  simp [raOf, encodeI1, field_or, field_place_same, field_place_apart]

theorem rbOf_encodeI1 (op : BitVec 5) (ra rb : Reg) (imm17 : BitVec 17) : rbOf (encodeI1 op ra rb imm17) = rb := by
  simp [rbOf, encodeI1, field_or, field_place_same, field_place_apart]

theorem imm17Of_encodeI1 (op : BitVec 5) (ra rb : Reg) (imm17 : BitVec 17) :
    imm17Of (encodeI1 op ra rb imm17) = imm17 := by
  simp [imm17Of, encodeI1, field_or, field_place_same, field_place_apart]

theorem raOf_encodeI2 (c : Config) (op : BitVec 5) (ra rb : Reg) (t : Type2) : raOf (encodeI2 c op ra rb t) = ra := by
  simp [raOf, encodeI2, field_or, field_place_same, field_place_apart, field_encodeType2_apart]

theorem rbOf_encodeI2 (c : Config) (op : BitVec 5) (ra rb : Reg) (t : Type2) : rbOf (encodeI2 c op ra rb t) = rb := by
  simp [rbOf, encodeI2, field_or, field_place_same, field_place_apart, field_encodeType2_apart]

theorem raOf_encodeBL (op : BitVec 5) (ra rb rc : Reg) (cond : Cond) : raOf (encodeBL op ra rb rc cond) = ra := by
  simp [raOf, encodeBL, field_or, field_place_same, field_place_apart]

theorem rbOf_encodeBL (op : BitVec 5) (ra rb rc : Reg) (cond : Cond) : rbOf (encodeBL op ra rb rc cond) = rb := by
  simp [rbOf, encodeBL, field_or, field_place_same, field_place_apart]

theorem rcOf_encodeBL (op : BitVec 5) (ra rb rc : Reg) (cond : Cond) : rcOf (encodeBL op ra rb rc cond) = rc := by
  simp [rcOf, encodeBL, field_or, field_place_same, field_place_apart]

theorem condOf_encodeBL (op : BitVec 5) (ra rb rc : Reg) (cond : Cond) :
    condOf (encodeBL op ra rb rc cond) = cond.code := by
  simp [condOf, encodeBL, field_or, field_place_same, field_place_apart]

theorem raOf_encodeJR (op : BitVec 5) (ra : Reg) (imm22 : BitVec 22) : raOf (encodeJR op ra imm22) = ra := by
  simp [raOf, encodeJR, field_or, field_place_same, field_place_apart]

theorem imm22Of_encodeJR (op : BitVec 5) (ra : Reg) (imm22 : BitVec 22) : imm22Of (encodeJR op ra imm22) = imm22 := by
  simp [imm22Of, encodeJR, field_or, field_place_same, field_place_apart]

/-! ## A BR or BRL whose free fields are zeros (R97) -/

/-- A field that must be zero where it is not read is what its reader makes of it. -/
theorem free_field_eq {reads : Bool} {r : Reg} (h : (reads || r == 0#5) = true) : (if reads then r else 0#5) = r := by
  cases reads with
  | false => exact (eq_of_beq h).symm
  | true => rfl

theorem br_wellFormed {c : Config} {rb rc : Reg} {cond : Cond} (h : (Instr.br rb rc cond).wellFormed c = true) :
    cond.allowed c = true ∧ (if cond.readsRc then rc else 0#5) = rc ∧ (if cond.branches then rb else 0#5) = rb := by
  simp only [Instr.wellFormed, Bool.and_eq_true] at h
  obtain ⟨⟨hallowed, hrc⟩, hrb⟩ := h
  exact ⟨hallowed, free_field_eq hrc, free_field_eq hrb⟩

theorem brl_wellFormed {c : Config} {ra rb rc : Reg} {cond : Cond} (h : (Instr.brl ra rb rc cond).wellFormed c = true) :
    cond.allowed c = true ∧ (if cond.readsRc then rc else 0#5) = rc := by
  simp only [Instr.wellFormed, Bool.and_eq_true] at h
  exact ⟨h.1, free_field_eq h.2⟩

/-! ## Reading an encoded word by its fields -/

theorem decodeFields_encode {c : Config} {i : Instr} (h : i.wellFormed c = true) :
    decodeFields c (encode c i) = .instr i := by
  have hop := opOf_encode c i
  unfold decodeFields
  rw [hop]
  cases i with
  | addi | ori | andi | movi | ld | st => simp [encode, opcodeOf, raOf_encodeI1, rbOf_encodeI1, imm17Of_encodeI1]
  | addi2 | ori2 | andi2 | movi2 => simp [encode, opcodeOf, raOf_encodeI2, rbOf_encodeI2, type2Of_encodeI2]
  | add | sub | not | neg | or | and | xor => simp [encode, opcodeOf, raOf_encodeR3, rbOf_encodeR3, rcOf_encodeR3]
  | asr | lsr | shl | ror =>
    simp [encode, opcodeOf, raOf_encodeSH, rbOf_encodeSH, iOf_encodeSH, shamtOf_encodeSH]
  | asrR | lsrR | shlR | rorR =>
    simp [encode, opcodeOf, raOf_encodeSH, rbOf_encodeSH, iOf_encodeSH, rcOf_encodeSH]
  | br rb rc cond =>
    obtain ⟨hallowed, hrc, hrb⟩ := br_wellFormed h
    simp [encode, opcodeOf, brWith, condOf_encodeBL, Cond.ofCode_code, rbOf_encodeBL, rcOf_encodeBL, hallowed, hrc, hrb]
  | brl ra rb rc cond =>
    obtain ⟨hallowed, hrc⟩ := brl_wellFormed h
    simp [encode, opcodeOf, brlWith, condOf_encodeBL, Cond.ofCode_code, raOf_encodeBL, rbOf_encodeBL, rcOf_encodeBL,
      hallowed, hrc]
  | j | jl | ldr | str | lea => simp [encode, opcodeOf, raOf_encodeJR, imm22Of_encodeJR]
  | ien | ids | rfi => rfl

/-! ## No unused bit is set -/

theorem place_zero (n lo : Nat) : place 0#n lo = 0#32 := by
  simp [place]

/-- Format BL leaves bits 11..3 unused. -/
theorem encodeBL_and_unused (op : BitVec 5) (ra rb rc : Reg) (cond : Cond) :
    encodeBL op ra rb rc cond &&& 0x00000FF8#32 = 0#32 := by
  simp (disch := decide) [encodeBL, or_and_mask, place_and_mask]

/-- Format B leaves the bits of ra unused too. -/
theorem encodeBL_ra_zero_and_unused (op : BitVec 5) (rb rc : Reg) (cond : Cond) :
    encodeBL op 0#5 rb rc cond &&& 0x07C00FF8#32 = 0#32 := by
  simp (disch := decide) [encodeBL, or_and_mask, place_and_mask, place_zero]

theorem encodeBL_and_unreadByBrl (op : BitVec 5) (ra rb : Reg) {rc : Reg} {cond : Cond}
    (h : (if cond.readsRc then rc else 0#5) = rc) : encodeBL op ra rb rc cond &&& unreadByBrl cond = 0#32 := by
  cases hr : cond.readsRc with
  | false =>
    obtain rfl : 0#5 = rc := by simpa [hr] using h
    simp (disch := decide) [encodeBL, unreadByBrl, hr, or_and_mask, place_and_mask, place_zero]
  | true => simp [unreadByBrl, hr]

theorem encodeBL_and_unreadByBr (op : BitVec 5) (ra : Reg) {rb rc : Reg} {cond : Cond}
    (hrb : (if cond.branches then rb else 0#5) = rb) (hrc : (if cond.readsRc then rc else 0#5) = rc) :
    encodeBL op ra rb rc cond &&& unreadByBr cond = 0#32 := by
  have hrest := encodeBL_and_unreadByBrl op ra rb hrc
  cases hb : cond.branches with
  | false =>
    obtain rfl : 0#5 = rb := by simpa [hb] using hrb
    rw [unreadByBr, BitVec.and_or_distrib_left, hrest]
    simp (disch := decide) [encodeBL, hb, or_and_mask, place_and_mask, place_zero]
  | true => simpa [unreadByBr, hb] using hrest

theorem encode_and_unusedMask {c : Config} {i : Instr} (h : i.wellFormed c = true) :
    encode c i &&& unusedMask (encode c i) = 0#32 := by
  have hop := opOf_encode c i
  unfold unusedMask
  rw [hop]
  cases i with
  | addi | ori | andi | ld | st | addi2 | ori2 | andi2 | jl | ldr | str | lea => exact BitVec.and_zero
  | movi =>
    simp (disch := decide) [encode, opcodeOf, encodeI1, or_and_mask, place_and_mask, place_zero]
  | movi2 =>
    simp (disch := decide) [encode, opcodeOf, encodeI2, or_and_mask, place_and_mask, encodeType2_and_mask, place_zero]
  | add | sub | or | and | xor => exact encodeR3_and_unused _ _ _ _
  | not | neg => exact encodeR3_rb_zero_and_unused _ _ _
  | asr | lsr | shl | ror => simp [encode, opcodeOf, iOf_encodeSH, encodeSH_imm_and_unused]
  | asrR | lsrR | shlR | rorR => simp [encode, opcodeOf, iOf_encodeSH, encodeSH_reg_and_unused]
  | br rb rc cond =>
    obtain ⟨-, hrc, hrb⟩ := br_wellFormed h
    simp [encode, opcodeOf, condOf_encodeBL, Cond.ofCode_code, BitVec.and_or_distrib_left,
      encodeBL_ra_zero_and_unused, encodeBL_and_unreadByBr _ _ hrb hrc]
  | brl ra rb rc cond =>
    obtain ⟨-, hrc⟩ := brl_wellFormed h
    simp [encode, opcodeOf, condOf_encodeBL, Cond.ofCode_code, BitVec.and_or_distrib_left,
      encodeBL_and_unused, encodeBL_and_unreadByBrl _ _ _ hrc]
  | j => simp (disch := decide) [encode, opcodeOf, encodeJR, or_and_mask, place_and_mask, place_zero]
  | ien | ids | rfi => simp (disch := decide) [encode, opcodeOf, place_and_mask]

/-- The decoder gives an encoded instruction back. -/
theorem decode_encode {c : Config} {i : Instr} (h : i.wellFormed c = true) : decodeWord c (encode c i) = .instr i :=
  decodeWord_of_fields (decodeFields_encode h) (encode_and_unusedMask h)

end Sys2Proof

open Sys2Proof Sys2Proof.Machine

/-- Settles O1: the fields are read back, and no unused bit is set. -/
theorem decodeOfEncodeIsTheInstruction : Obligations.DecodeOfEncodeIsTheInstruction :=
  fun _ _ => decode_encode

end

section
/-! The decoder's words (R97 to R108): a word is its fields put back in place but for its unused bits, the decoder looks
at no unused bit, and which words are reserved. -/

namespace Sys2Proof

/-! ## A word is its fields -/

/-- A field put back where it was read is the word masked to the field. -/
theorem place_field (w : Word) (lo n : Nat) : place (field w lo n) lo = w &&& place (BitVec.allOnes n) lo := by
  apply BitVec.eq_of_getLsbD_eq
  intro k hk
  rw [getLsbD_place, BitVec.getLsbD_and, getLsbD_place, field, BitVec.getLsbD_extractLsb', BitVec.getLsbD_allOnes]
  by_cases hlo : lo ≤ k
  · simp [hk, hlo, show lo + (k - lo) = k by omega, Bool.and_comm]
  · simp [hlo]

theorem encodeType2_type2Of (l : Type2Layout) (w : Word) : encodeType2 l (type2Of l w) = w &&& 0x0001FFFF#32 := by
  unfold encodeType2 type2Of
  cases l <;>
    simp only [Type2Layout.modeLo, Type2Layout.immLo, Type2Layout.shamtLo, ShiftMode.code_ofCode, place_field,
      ← BitVec.and_or_distrib_left] <;>
    rfl

/-! Each format's canonical word, made of the fields that its decoder reads, is the word with the format's unused bits
cleared. -/

section Formats

variable {w : Word} {op : BitVec 5} (hop : (opOf w).toNat = op.toNat)
include hop

theorem place_op : place op 27 = w &&& ~~~ 0x07FFFFFF#32 :=
  (congrArg (place · 27) (BitVec.eq_of_toNat_eq hop)).symm.trans (place_field w 27 5)

theorem encodeI1_of_fields : encodeI1 op (raOf w) (rbOf w) (imm17Of w) = w &&& ~~~ 0#32 := by
  simp only [encodeI1, place_op hop, raOf, rbOf, imm17Of, place_field, ← BitVec.and_or_distrib_left]
  rfl

theorem encodeI1_of_ra_imm17 : encodeI1 op (raOf w) 0#5 (imm17Of w) = w &&& ~~~ 0x003E0000#32 := by
  simp only [encodeI1, place_op hop, raOf, imm17Of, place_zero, BitVec.or_zero, place_field,
    ← BitVec.and_or_distrib_left]
  rfl

theorem encodeI2_of_fields (c : Config) :
    encodeI2 c op (raOf w) (rbOf w) (type2Of c.type2Layout w) = w &&& ~~~ 0#32 := by
  simp only [encodeI2, place_op hop, raOf, rbOf, encodeType2_type2Of, place_field, ← BitVec.and_or_distrib_left]
  rfl

theorem encodeI2_of_ra_type2 (c : Config) :
    encodeI2 c op (raOf w) 0#5 (type2Of c.type2Layout w) = w &&& ~~~ 0x003E0000#32 := by
  simp only [encodeI2, place_op hop, raOf, encodeType2_type2Of, place_zero, BitVec.or_zero, place_field,
    ← BitVec.and_or_distrib_left]
  rfl

theorem encodeR3_of_fields : encodeR3 op (raOf w) (rbOf w) (rcOf w) = w &&& ~~~ 0x00000FFF#32 := by
  simp only [encodeR3, place_op hop, raOf, rbOf, rcOf, place_field, ← BitVec.and_or_distrib_left]
  rfl

theorem encodeR3_of_ra_rc : encodeR3 op (raOf w) 0#5 (rcOf w) = w &&& ~~~ 0x003E0FFF#32 := by
  simp only [encodeR3, place_op hop, raOf, rcOf, place_zero, BitVec.or_zero, place_field,
    ← BitVec.and_or_distrib_left]
  rfl

theorem encodeSH_of_shamt (hi : iOf w = 0#1) :
    encodeSH op (raOf w) (rbOf w) 0#5 0#1 (shamtOf w) = w &&& ~~~ 0x0001FFC0#32 := by
  rw [← hi]
  simp only [encodeSH, place_op hop, raOf, rbOf, iOf, shamtOf, place_zero, BitVec.or_zero, place_field,
    ← BitVec.and_or_distrib_left]
  rfl

theorem encodeSH_of_rc (hi : iOf w = 1#1) :
    encodeSH op (raOf w) (rbOf w) (rcOf w) 1#1 0#5 = w &&& ~~~ 0x00000FDF#32 := by
  rw [← hi]
  simp only [encodeSH, place_op hop, raOf, rbOf, rcOf, iOf, place_zero, BitVec.or_zero, place_field,
    ← BitVec.and_or_distrib_left]
  rfl

theorem encodeBL_of_fields {cond : Cond} (hcond : Cond.ofCode (condOf w) = cond) :
    encodeBL op (raOf w) (rbOf w) (if cond.readsRc then rcOf w else 0#5) cond =
      w &&& ~~~ (0x00000FF8#32 ||| unreadByBrl cond) := by
  have hcode : cond.code = field w 0 3 := hcond ▸ Cond.code_ofCode _
  cases hrc : cond.readsRc <;>
    simp only [encodeBL, place_op hop, raOf, rbOf, rcOf, hcode, unreadByBrl, hrc, if_true, if_false, place_zero,
      BitVec.or_zero, place_field, ← BitVec.and_or_distrib_left, Bool.false_eq_true] <;>
    rfl

theorem encodeBL_of_rb_rc {cond : Cond} (hcond : Cond.ofCode (condOf w) = cond) :
    encodeBL op 0#5 (if cond.branches then rbOf w else 0#5) (if cond.readsRc then rcOf w else 0#5) cond =
      w &&& ~~~ (0x07C00FF8#32 ||| unreadByBr cond) := by
  have hcode : cond.code = field w 0 3 := hcond ▸ Cond.code_ofCode _
  cases hrb : cond.branches <;> cases hrc : cond.readsRc <;>
    simp only [encodeBL, place_op hop, rbOf, rcOf, hcode, unreadByBr, unreadByBrl, hrb, hrc, if_true, if_false,
      place_zero, BitVec.or_zero, place_field, ← BitVec.and_or_distrib_left, Bool.false_eq_true] <;>
    rfl

theorem encodeJR_of_fields : encodeJR op (raOf w) (imm22Of w) = w &&& ~~~ 0#32 := by
  simp only [encodeJR, place_op hop, raOf, imm22Of, place_field, ← BitVec.and_or_distrib_left]
  rfl

theorem encodeJR_of_imm22 : encodeJR op 0#5 (imm22Of w) = w &&& ~~~ 0x07C00000#32 := by
  simp only [encodeJR, place_op hop, imm22Of, place_zero, BitVec.or_zero, place_field,
    ← BitVec.and_or_distrib_left]
  rfl

end Formats

/-- What the decoder answers is well formed, and its canonical word is the decoded one but for unused bits. -/
def CanonicalWord (c : Config) (w : Word) (i : Instr) : Prop :=
  i.wellFormed c = true ∧ encode c i = w &&& ~~~ unusedMask w

theorem canonicalWord_of_mask {c : Config} {w m : Word} {i : Instr} (hi : i.wellFormed c = true)
    (hm : unusedMask w = m) (he : encode c i = w &&& ~~~ m) : CanonicalWord c w i :=
  ⟨hi, hm ▸ he⟩

/-- The i bit of a shift's word chooses the instruction, and with it the unused field (R96). -/
theorem canonicalWord_of_shift {c : Config} {w : Word} {op : BitVec 5} {byShamt byRc : Instr}
    (hshamt : byShamt.wellFormed c = true) (hrc : byRc.wellFormed c = true)
    (hm : unusedMask w = if iOf w = 0#1 then 0x0001FFC0#32 else 0x00000FDF#32)
    (heshamt : encode c byShamt = encodeSH op (raOf w) (rbOf w) 0#5 0#1 (shamtOf w))
    (herc : encode c byRc = encodeSH op (raOf w) (rbOf w) (rcOf w) 1#1 0#5)
    (hop : (opOf w).toNat = op.toNat) : CanonicalWord c w (if iOf w = 0#1 then byShamt else byRc) := by
  by_cases hi : iOf w = 0#1
  · rw [if_pos hi] at hm ⊢
    exact canonicalWord_of_mask hshamt hm (heshamt.trans (encodeSH_of_shamt hop hi))
  · have hi' : iOf w = 1#1 := (BitVec.eq_zero_or_eq_one (iOf w)).resolve_left hi
    rw [if_neg hi] at hm ⊢
    exact canonicalWord_of_mask hrc hm (herc.trans (encodeSH_of_rc hop hi'))

theorem free_field_wf (reads : Bool) (r : Reg) : (reads || (if reads then r else 0#5) == 0#5) = true := by
  cases reads <;> rfl

theorem canonicalWord_of_br {c : Config} {w : Word} {i : Instr} (hop : (opOf w).toNat = 19)
    (h : brWith c (Cond.ofCode (condOf w)) w = .instr i) : CanonicalWord c w i := by
  unfold brWith at h
  split at h
  · next hallowed =>
    obtain rfl := Decoded.instr.inj h
    refine canonicalWord_of_mask ?_ ?_ (encodeBL_of_rb_rc (op := 19#5) hop rfl)
    · simp only [Instr.wellFormed, hallowed, free_field_wf, Bool.and_self]
    · simp only [unusedMask, hop]
  · cases h

theorem canonicalWord_of_brl {c : Config} {w : Word} {i : Instr} (hop : (opOf w).toNat = 20)
    (h : brlWith c (Cond.ofCode (condOf w)) w = .instr i) : CanonicalWord c w i := by
  unfold brlWith at h
  split at h
  · next hallowed =>
    obtain rfl := Decoded.instr.inj h
    refine canonicalWord_of_mask ?_ ?_ (encodeBL_of_fields (op := 20#5) hop rfl)
    · simp only [Instr.wellFormed, hallowed, free_field_wf, Bool.and_self]
    · simp only [unusedMask, hop]
  · cases h

/-- By opcode, format by format (R106). -/
theorem decodeFields_instr {c : Config} {w : Word} {i : Instr} (h : decodeFields c w = .instr i) :
    CanonicalWord c w i := by
  match hop : (opOf w).toNat, (opOf w).isLt with
  | 0, _ | 2, _ | 4, _ | 23, _ | 25, _ =>
    obtain rfl : _ = i := by simpa [decodeFields, hop] using h
    exact canonicalWord_of_mask rfl (by simp [unusedMask, hop]) (encodeI1_of_fields hop)
  | 1, _ | 3, _ | 5, _ =>
    obtain rfl : _ = i := by simpa [decodeFields, hop] using h
    exact canonicalWord_of_mask rfl (by simp [unusedMask, hop]) (encodeI2_of_fields hop c)
  | 6, _ =>
    obtain rfl : _ = i := by simpa [decodeFields, hop] using h
    exact canonicalWord_of_mask rfl (by simp [unusedMask, hop]) (encodeI1_of_ra_imm17 hop)
  | 7, _ =>
    obtain rfl : _ = i := by simpa [decodeFields, hop] using h
    exact canonicalWord_of_mask rfl (by simp [unusedMask, hop]) (encodeI2_of_ra_type2 hop c)
  | 8, _ | 9, _ | 12, _ | 13, _ | 14, _ =>
    obtain rfl : _ = i := by simpa [decodeFields, hop] using h
    exact canonicalWord_of_mask rfl (by simp [unusedMask, hop]) (encodeR3_of_fields hop)
  | 10, _ | 11, _ =>
    obtain rfl : _ = i := by simpa [decodeFields, hop] using h
    exact canonicalWord_of_mask rfl (by simp [unusedMask, hop]) (encodeR3_of_ra_rc hop)
  | 15, _ | 16, _ | 17, _ | 18, _ =>
    obtain rfl : _ = i := by simpa [decodeFields, hop] using h
    exact canonicalWord_of_shift rfl rfl (by simp [unusedMask, hop]) rfl rfl hop
  | 19, _ => exact canonicalWord_of_br hop (by simpa [decodeFields, hop] using h)
  | 20, _ => exact canonicalWord_of_brl hop (by simpa [decodeFields, hop] using h)
  | 21, _ =>
    obtain rfl : _ = i := by simpa [decodeFields, hop] using h
    exact canonicalWord_of_mask rfl (by simp [unusedMask, hop]) (encodeJR_of_imm22 hop)
  | 22, _ | 24, _ | 26, _ | 27, _ =>
    obtain rfl : _ = i := by simpa [decodeFields, hop] using h
    exact canonicalWord_of_mask rfl (by simp [unusedMask, hop]) (encodeJR_of_fields hop)
  | 28, _ => simp [decodeFields, hop] at h
  | 29, _ | 30, _ | 31, _ =>
    obtain rfl : _ = i := by simpa [decodeFields, hop] using h
    exact canonicalWord_of_mask rfl (by simp [unusedMask, hop]) (place_op hop)
  | n + 32, hlt => omega

/-! ## UNUSED_BITS -/

theorem decodeWord_instr {c : Config} {w : Word} {i : Instr} (h : decodeWord c w = .instr i) :
    decodeFields c w = .instr i ∧ hasForbiddenBits c w = false := by
  unfold decodeWord at h
  split at h
  · cases h
  · next j hj =>
    split at h
    · cases h
    · next hbits => exact ⟨hj.trans h, by simpa using hbits⟩

theorem hasForbiddenBits_refuse {c : Config} (hc : c.unusedBits = .refuse) (w : Word) :
    hasForbiddenBits c w = (w &&& unusedMask w != 0#32) := by
  simp [hasForbiddenBits, hc]

theorem and_not_of_and_eq_zero {w m : Word} (h : w &&& m = 0#32) : w &&& ~~~ m = w :=
  calc w &&& ~~~ m = (w &&& m) ||| (w &&& ~~~ m) := by rw [h, BitVec.zero_or]
    _ = w := by rw [← BitVec.and_or_distrib_left, BitVec.or_not_self, BitVec.and_allOnes]

end Sys2Proof

open Sys2Proof Sys2Proof.Machine

/-- Settles O2: the decoder's own fields, put back in place, are the word but for the unused bits. -/
theorem decodedWordIsCanonicalUpToUnusedBits : Obligations.DecodedWordIsCanonicalUpToUnusedBits := by
  intro c w i h
  obtain ⟨hfields, hbits⟩ := decodeWord_instr h
  obtain ⟨hwf, hword⟩ := decodeFields_instr hfields
  refine ⟨hwf, hword, fun hc => ?_⟩
  rw [hasForbiddenBits_refuse hc] at hbits
  exact hword.trans (and_not_of_and_eq_zero (by simpa using hbits))

end

section
/-! UNUSED_BITS = `ignore` (R97): a decoded field lies outside the unused bits, so two words that differ only there
decode alike. -/

namespace Sys2Proof

section SameFields

variable {w w' m : Word} (h : w' &&& ~~~ m = w &&& ~~~ m)
include h

/-- A field outside the mask is the same in both words. -/
theorem field_congr (lo n : Nat) (hm : field m lo n = 0#n) : field w' lo n = field w lo n := by
  rw [← field_masked w' m lo n hm, h, field_masked w m lo n hm]

theorem opOf_congr (hm : field m 27 5 = 0#5) : opOf w' = opOf w := field_congr h 27 5 hm

theorem raOf_congr (hm : field m 22 5 = 0#5) : raOf w' = raOf w := field_congr h 22 5 hm

theorem rbOf_congr (hm : field m 17 5 = 0#5) : rbOf w' = rbOf w := field_congr h 17 5 hm

theorem rcOf_congr (hm : field m 12 5 = 0#5) : rcOf w' = rcOf w := field_congr h 12 5 hm

theorem imm17Of_congr (hm : field m 0 17 = 0#17) : imm17Of w' = imm17Of w := field_congr h 0 17 hm

theorem imm22Of_congr (hm : field m 0 22 = 0#22) : imm22Of w' = imm22Of w := field_congr h 0 22 hm

theorem shamtOf_congr (hm : field m 0 5 = 0#5) : shamtOf w' = shamtOf w := field_congr h 0 5 hm

theorem iOf_congr (hm : field m 5 1 = 0#1) : iOf w' = iOf w := field_congr h 5 1 hm

theorem condOf_congr (hm : field m 0 3 = 0#3) : condOf w' = condOf w := field_congr h 0 3 hm

/-- A type-2 operand lies in bits 16..0, whatever the layout. -/
theorem type2Of_congr (l : Type2Layout) (hm : field m 0 17 = 0#17) : type2Of l w' = type2Of l w := by
  have hlow : ∀ lo n, lo + n ≤ 17 → field w' lo n = field w lo n := by
    intro lo n hn
    apply field_congr h
    apply BitVec.eq_of_getLsbD_eq
    intro k hk
    have := congrArg (fun v : BitVec 17 => v.getLsbD (lo + k)) hm
    simpa [field, hk, show lo + k < 17 by omega] using this
  unfold type2Of
  cases l <;> simp [Type2Layout.modeLo, Type2Layout.immLo, Type2Layout.shamtLo, hlow]

end SameFields

/-! ## BR and BRL: the unused bits depend on the condition -/

theorem field_unreadByBrl (cond : Cond) (lo n : Nat) (h : cond.readsRc = false → field 0x0001F000#32 lo n = 0#n) :
    field (unreadByBrl cond) lo n = 0#n := by
  cases hr : cond.readsRc with
  | false => simpa [unreadByBrl, hr] using h hr
  | true => simp [unreadByBrl, hr, field]

theorem field_unreadByBr (cond : Cond) (lo n : Nat) (hrb : cond.branches = false → field 0x003E0000#32 lo n = 0#n)
    (hrc : cond.readsRc = false → field 0x0001F000#32 lo n = 0#n) : field (unreadByBr cond) lo n = 0#n := by
  rw [unreadByBr, field_or, field_unreadByBrl cond lo n hrc, BitVec.or_zero]
  cases hb : cond.branches with
  | false => simpa [hb] using hrb hb
  | true => simp [field]

/-- The unused bits of a BR's word (R97). -/
theorem field_brMask (cond : Cond) (lo n : Nat) (hbase : field 0x07C00FF8#32 lo n = 0#n)
    (hrb : cond.branches = false → field 0x003E0000#32 lo n = 0#n)
    (hrc : cond.readsRc = false → field 0x0001F000#32 lo n = 0#n) :
    field (0x07C00FF8#32 ||| unreadByBr cond) lo n = 0#n := by
  rw [field_or, hbase, field_unreadByBr cond lo n hrb hrc, BitVec.or_zero]

/-- The unused bits of a BRL's word (R97). -/
theorem field_brlMask (cond : Cond) (lo n : Nat) (hbase : field 0x00000FF8#32 lo n = 0#n)
    (hrc : cond.readsRc = false → field 0x0001F000#32 lo n = 0#n) :
    field (0x00000FF8#32 ||| unreadByBrl cond) lo n = 0#n := by
  rw [field_or, hbase, field_unreadByBrl cond lo n hrc, BitVec.or_zero]

theorem brWith_congr {c : Config} {cond : Cond} {w w' : Word}
    (h : w' &&& ~~~ (0x07C00FF8#32 ||| unreadByBr cond) = w &&& ~~~ (0x07C00FF8#32 ||| unreadByBr cond)) :
    brWith c cond w' = brWith c cond w := by
  have hrb : cond.branches = true → rbOf w' = rbOf w := fun hb =>
    rbOf_congr h (field_brMask cond 17 5 rfl (by simp [hb]) fun _ => rfl)
  have hrc : cond.readsRc = true → rcOf w' = rcOf w := fun hr =>
    rcOf_congr h (field_brMask cond 12 5 rfl (fun _ => rfl) (by simp [hr]))
  simp +contextual only [brWith, hrb, hrc]

theorem brlWith_congr {c : Config} {cond : Cond} {w w' : Word}
    (h : w' &&& ~~~ (0x00000FF8#32 ||| unreadByBrl cond) = w &&& ~~~ (0x00000FF8#32 ||| unreadByBrl cond)) :
    brlWith c cond w' = brlWith c cond w := by
  have hra : raOf w' = raOf w := raOf_congr h (field_brlMask cond 22 5 rfl fun _ => rfl)
  have hrb : rbOf w' = rbOf w := rbOf_congr h (field_brlMask cond 17 5 rfl fun _ => rfl)
  have hrc : cond.readsRc = true → rcOf w' = rcOf w := fun hr =>
    rcOf_congr h (field_brlMask cond 12 5 rfl (by simp [hr]))
  simp +contextual only [brlWith, hra, hrb, hrc]

/-! ## Every opcode -/

/-- The decoder looks at no unused bit, opcode by opcode (R97, R106). -/
theorem decodeFields_congr {c : Config} {w w' : Word} (h : w' &&& ~~~ unusedMask w = w &&& ~~~ unusedMask w) :
    decodeFields c w' = decodeFields c w := by
  match hop : (opOf w).toNat, (opOf w).isLt with
  | 0, _ | 1, _ | 2, _ | 3, _ | 4, _ | 5, _ | 22, _ | 23, _ | 24, _ | 25, _ | 26, _ | 27, _ | 28, _ =>
    have hm : unusedMask w = 0#32 := by simp only [unusedMask, hop]
    rw [hm, BitVec.not_zero, BitVec.and_allOnes, BitVec.and_allOnes] at h
    rw [h]
  | 6, _ | 7, _ =>
    have hm : unusedMask w = 0x003E0000#32 := by simp only [unusedMask, hop]
    rw [hm] at h
    simp [decodeFields, opOf_congr h rfl, hop, raOf_congr h rfl, imm17Of_congr h rfl, type2Of_congr h _ rfl]
  | 8, _ | 9, _ | 12, _ | 13, _ | 14, _ =>
    have hm : unusedMask w = 0x00000FFF#32 := by simp only [unusedMask, hop]
    rw [hm] at h
    simp [decodeFields, opOf_congr h rfl, hop, raOf_congr h rfl, rbOf_congr h rfl, rcOf_congr h rfl]
  | 10, _ | 11, _ =>
    have hm : unusedMask w = 0x003E0FFF#32 := by simp only [unusedMask, hop]
    rw [hm] at h
    simp [decodeFields, opOf_congr h rfl, hop, raOf_congr h rfl, rcOf_congr h rfl]
  | 15, _ | 16, _ | 17, _ | 18, _ =>
    by_cases hi : iOf w = 0#1
    · have hm : unusedMask w = 0x0001FFC0#32 := by simp only [unusedMask, hop, hi, if_true]
      rw [hm] at h
      simp [decodeFields, opOf_congr h rfl, hop, raOf_congr h rfl, rbOf_congr h rfl, iOf_congr h rfl, hi,
        shamtOf_congr h rfl]
    · have hm : unusedMask w = 0x00000FDF#32 := by simp only [unusedMask, hop, hi, if_false]
      rw [hm] at h
      simp [decodeFields, opOf_congr h rfl, hop, raOf_congr h rfl, rbOf_congr h rfl, iOf_congr h rfl, hi,
        rcOf_congr h rfl]
  | 19, _ =>
    simp only [unusedMask, hop] at h
    have hop' := opOf_congr h (field_brMask _ 27 5 rfl (fun _ => rfl) fun _ => rfl)
    have hcond := condOf_congr h (field_brMask _ 0 3 rfl (fun _ => rfl) fun _ => rfl)
    simpa only [decodeFields, hop', hop, hcond] using brWith_congr h
  | 20, _ =>
    simp only [unusedMask, hop] at h
    have hop' := opOf_congr h (field_brlMask _ 27 5 rfl fun _ => rfl)
    have hcond := condOf_congr h (field_brlMask _ 0 3 rfl fun _ => rfl)
    simpa only [decodeFields, hop', hop, hcond] using brlWith_congr h
  | 21, _ =>
    have hm : unusedMask w = 0x07C00000#32 := by simp only [unusedMask, hop]
    rw [hm] at h
    simp [decodeFields, opOf_congr h rfl, hop, imm22Of_congr h rfl]
  | 29, _ | 30, _ | 31, _ =>
    have hm : unusedMask w = 0x07FFFFFF#32 := by simp only [unusedMask, hop]
    rw [hm] at h
    simp [decodeFields, opOf_congr h rfl, hop]
  | n + 32, hlt => omega

theorem decodeWord_ignore {c : Config} (hc : c.unusedBits = .ignore) (w : Word) :
    decodeWord c w = decodeFields c w := by
  unfold decodeWord
  cases hd : decodeFields c w with
  | instr i => simp [hasForbiddenBits, hc]
  | reserved r => rfl

/-- With UNUSED_BITS = `refuse` a word with an unused bit set is no instruction (R97). -/
theorem decodeWord_refuse {c : Config} (hc : c.unusedBits = .refuse) {w : Word} (hw : w &&& unusedMask w ≠ 0#32)
    (i : Instr) : decodeWord c w ≠ .instr i := by
  intro h
  have hbits := (decodeWord_instr h).2
  rw [hasForbiddenBits_refuse hc] at hbits
  exact hw (by simpa using hbits)

end Sys2Proof

open Sys2Proof Sys2Proof.Machine

/-- Settles O3: the decoder opcode by opcode, its refusal by definition, and the encoder format by format. -/
theorem unusedBitsDoNotMatter : Obligations.UnusedBitsDoNotMatter := by
  refine ⟨fun c w w' hc h => ?_, fun c w hc => decodeWord_refuse hc, fun c i => encode_and_unusedMask⟩
  rw [decodeWord_ignore hc, decodeWord_ignore hc, decodeFields_congr h]

end

section
/-! Reserved words (R100, R107, R108): opcode 28, and the reserved conditions of opcodes 19 and 20. -/

namespace Sys2Proof

theorem allowed_eq_false (c : Config) (cond : Cond) :
    cond.allowed c = false ↔ c.reservedCond = .refuse ∧ (cond = .reserved6 ∨ cond = .reserved7) := by
  cases cond with
  | reserved6 | reserved7 => cases hr : c.reservedCond <;> simp [Cond.allowed, hr]
  | nv | al | eq | ne | ge | lt => simp [Cond.allowed]

theorem ofCode_eq_iff (code : BitVec 3) (cond : Cond) : Cond.ofCode code = cond ↔ code = cond.code :=
  ⟨fun h => h ▸ (Cond.code_ofCode code).symm, fun h => h ▸ Cond.ofCode_code cond⟩

/-- By opcode: only 28, and the conditions of 19 and 20, answer a reserved word. -/
theorem decodeFields_reserved {c : Config} {w : Word} {r : Reserved} :
    decodeFields c w = .reserved r ↔ (r = .opcode28 ∧ (opOf w).toNat = 28) ∨
      (r = .cond ∧ ((opOf w).toNat = 19 ∨ (opOf w).toNat = 20) ∧ (Cond.ofCode (condOf w)).allowed c = false) := by
  match hop : (opOf w).toNat, (opOf w).isLt with
  | 0, _ | 1, _ | 2, _ | 3, _ | 4, _ | 5, _ | 6, _ | 7, _ | 8, _ | 9, _ | 10, _ | 11, _ | 12, _ | 13, _ | 14, _ | 15, _
  | 16, _ | 17, _ | 18, _ | 21, _ | 22, _ | 23, _ | 24, _ | 25, _ | 26, _ | 27, _ | 29, _ | 30, _ | 31, _ =>
    simp [decodeFields, hop]
  | 19, _ => cases ha : (Cond.ofCode (condOf w)).allowed c <;> simp [decodeFields, hop, brWith, ha, eq_comm (a := r)]
  | 20, _ => cases ha : (Cond.ofCode (condOf w)).allowed c <;> simp [decodeFields, hop, brlWith, ha, eq_comm (a := r)]
  | 28, _ => simp [decodeFields, hop, eq_comm (a := r)]
  | n + 32, hlt => omega

theorem decodeWord_reserved {c : Config} {w : Word} {r : Reserved} (hr : r ≠ .unusedBits) :
    decodeWord c w = .reserved r ↔ decodeFields c w = .reserved r := by
  unfold decodeWord
  cases hd : decodeFields c w with
  | reserved q => rfl
  | instr i => cases hasForbiddenBits c w <;> simp [hr.symm]

/-- Opcode 28 is the only unassigned one (R107). -/
theorem decodeWord_opcode28 {c : Config} {w : Word} : decodeWord c w = .reserved .opcode28 ↔ opOf w = 28#5 := by
  rw [decodeWord_reserved (r := .opcode28) nofun, decodeFields_reserved, ← BitVec.toNat_inj]
  simp

/-- The conditions that R108 reserves, in the two formats that have one. -/
theorem decodeWord_cond {c : Config} {w : Word} : decodeWord c w = .reserved .cond ↔
    c.reservedCond = .refuse ∧ (opOf w = 19#5 ∨ opOf w = 20#5) ∧ (condOf w = 6#3 ∨ condOf w = 7#3) := by
  have hop19 : (opOf w).toNat = 19 ↔ opOf w = 19#5 := BitVec.toNat_inj (y := 19#5)
  have hop20 : (opOf w).toNat = 20 ↔ opOf w = 20#5 := BitVec.toNat_inj (y := 20#5)
  rw [decodeWord_reserved (r := .cond) nofun, decodeFields_reserved, allowed_eq_false, ofCode_eq_iff, ofCode_eq_iff,
    hop19, hop20]
  simp [Cond.code, and_left_comm]

theorem decodeWord_ne_unusedBits {c : Config} (hc : c.unusedBits = .ignore) (w : Word) :
    decodeWord c w ≠ .reserved .unusedBits := by
  rw [decodeWord_ignore hc, Ne, decodeFields_reserved]
  simp

end Sys2Proof

open Sys2Proof Sys2Proof.Machine

/-- Settles O4: the three characterisations above. -/
theorem reservedWordsAreExactlyOpcode28AndReservedConds : Obligations.ReservedWordsAreExactlyOpcode28AndReservedConds :=
  fun _ w => ⟨decodeWord_opcode28, decodeWord_cond, fun hc => decodeWord_ne_unusedBits hc w⟩

end

section
/-! Operands (R11 to R13): sign extension and the four shift functions, bit by bit. -/

namespace Sys2Proof.Machine

theorem getLsbD_sext {n : Nat} (v : BitVec n) {k : Nat} (hk : k < 32) :
    (sext v).getLsbD k = if k < n then v.getLsbD k else v.getLsbD (n - 1) := by
  rw [sext, BitVec.getLsbD_signExtend, BitVec.msb_eq_getLsbD_last]
  simp [hk]

theorem toInt_sext {n : Nat} (v : BitVec n) (hn : n ≤ 32) : (sext v).toInt = v.toInt :=
  BitVec.toInt_signExtend_of_le hn

/-- Extension keeps the signed value, so the field's own bounds hold of it. -/
theorem toInt_sext_bounds {n : Nat} (v : BitVec n) (hn : n ≤ 32) :
    -2 ^ (n - 1) ≤ (sext v).toInt ∧ (sext v).toInt < 2 ^ (n - 1) := by
  rw [toInt_sext v hn]
  exact ⟨BitVec.le_toInt v, BitVec.toInt_lt⟩

theorem getLsbD_shl32 (v : Word) (n : BitVec 5) {k : Nat} (hk : k < 32) :
    (shl32 v n).getLsbD k = (decide (n.toNat ≤ k) && v.getLsbD (k - n.toNat)) := by
  rw [shl32, BitVec.getLsbD_shiftLeft]
  simp only [hk, decide_true, Bool.true_and, ← decide_not, Nat.not_lt]

theorem getLsbD_lsr32 (v : Word) (n : BitVec 5) (k : Nat) :
    (lsr32 v n).getLsbD k = (decide (k + n.toNat < 32) && v.getLsbD (k + n.toNat)) := by
  rw [lsr32, BitVec.getLsbD_ushiftRight, Nat.add_comm]
  by_cases h : k + n.toNat < 32
  · simp [h]
  · simp [h, BitVec.getLsbD_of_ge v _ (Nat.le_of_not_lt h)]

theorem getLsbD_asr32 (v : Word) (n : BitVec 5) {k : Nat} (hk : k < 32) :
    (asr32 v n).getLsbD k = if k + n.toNat < 32 then v.getLsbD (k + n.toNat) else v.getLsbD 31 := by
  rw [asr32, BitVec.getLsbD_sshiftRight, Nat.add_comm, BitVec.msb_eq_getLsbD_last]
  simp [Nat.not_le_of_lt hk]

theorem getLsbD_ror32 (v : Word) (n : BitVec 5) {k : Nat} (hk : k < 32) :
    (ror32 v n).getLsbD k = v.getLsbD ((k + n.toNat) % 32) := by
  have hn : n.toNat < 32 := n.isLt
  rw [ror32, BitVec.getLsbD_rotateRight, Nat.mod_eq_of_lt hn]
  by_cases h : k < 32 - n.toNat
  · rw [Nat.mod_eq_of_lt (by omega : k + n.toNat < 32), Nat.add_comm]
    simp [h]
  · have hwrap : (k + n.toNat) % 32 = k - (32 - n.toNat) := by omega
    simp [h, hk, hwrap]

/-- A shift by 0 is no shift, in each of the four functions. -/
theorem shift_zero (v : Word) : shl32 v 0#5 = v ∧ lsr32 v 0#5 = v ∧ asr32 v 0#5 = v ∧ ror32 v 0#5 = v := by
  simp [shl32, lsr32, asr32, ror32, BitVec.rotateRight_def]

end Sys2Proof.Machine

open Sys2Proof Sys2Proof.Machine

/-- Settles O8: the bits and the bounds of the three widths. -/
theorem signExtensionCopiesTheTopBit : Obligations.SignExtensionCopiesTheTopBit := by
  refine ⟨fun v k => getLsbD_sext v, fun v k => getLsbD_sext v, fun v k => getLsbD_sext v, fun v => ?_, fun v => ?_,
    fun v => ?_⟩
  all_goals
    have hbounds := toInt_sext_bounds v (by decide)
    omega

/-- Settles O9: each function's bits, its value at amount 0, and the modes by evaluation of their codes. -/
theorem shiftFunctionsBitByBit : Obligations.ShiftFunctionsBitByBit := fun v n =>
  ⟨fun k hk => ⟨getLsbD_shl32 v n hk, getLsbD_lsr32 v n k, getLsbD_asr32 v n hk, getLsbD_ror32 v n hk⟩,
    fun hn => hn ▸ shift_zero v, fun _ => ⟨rfl, rfl, rfl, rfl⟩⟩

end

section
/-! Immediate and register arithmetic (R130 to R138, R151 to R154, R172, R175): each result over the integers, reduced
modulo 2^32, and each word read back by the decoder. -/

namespace Sys2Proof.Machine

/-! ## Words modulo 2^32 (R16, D11) -/

theorem add_eq_wrap (a b : Word) : a + b = wrap (a.toInt + b.toInt) := by
  rw [wrap, BitVec.ofInt_add, BitVec.ofInt_toInt, BitVec.ofInt_toInt]

theorem sub_eq_wrap (a b : Word) : a - b = wrap (a.toInt - b.toInt) := by
  rw [wrap, Int.sub_eq_add_neg, BitVec.ofInt_add, BitVec.ofInt_neg, BitVec.ofInt_toInt, BitVec.ofInt_toInt,
    BitVec.sub_eq_add_neg]

theorem add_sext_eq_wrap {n : Nat} (a : Word) (v : BitVec n) (hn : n ≤ 32) : a + sext v = wrap (a.toInt + v.toInt) := by
  rw [add_eq_wrap, toInt_sext v hn]

/-- A right shift that copies the sign is the floor division of the signed value (D12). -/
theorem asr32_eq_wrap (v : Word) (n : BitVec 5) : asr32 v n = wrap (v.toInt / 2 ^ n.toNat) :=
  calc asr32 v n = BitVec.ofInt 32 (asr32 v n).toInt := BitVec.ofInt_toInt.symm
    _ = wrap (v.toInt / 2 ^ n.toNat) := by
      rw [asr32, BitVec.toInt_sshiftRight, Int.shiftRight_eq_div_pow, Int.natCast_pow]
      rfl

theorem ror32_eq_or (v : Word) (n : BitVec 5) : ror32 v n = v >>> n.toNat ||| v <<< (32 - n.toNat) :=
  BitVec.rotateRight_eq_rotateRightAux_of_lt n.isLt

/-! ## Type-1 immediates -/

/-- A type-1 instruction that writes `f` of its register and its field. -/
theorem type1Rule_of_encode {op : BitVec 5} {mk : Reg → Reg → BitVec 17 → Instr} {f : Word → BitVec 17 → Word}
    (hwf : ∀ c ra rb v, (mk ra rb v).wellFormed c = true)
    (hword : ∀ c ra rb v, encode c (mk ra rb v) = encodeI1 op ra rb v)
    (hexec : ∀ ra rb v s, exec (mk ra rb v) s = writeReg ra (f (s.reg rb) v) s) :
    Type1Rule (place op 27) mk f := by
  intro c ra rb v s
  have hdecode := decode_encode (hwf c ra rb v)
  rw [hword] at hdecode
  exact ⟨hdecode, writes_of_writeReg (hexec ra rb v s)⟩

theorem type1Rule_addi : Type1Rule (place 0#5 27) .addi (fun b v => wrap (b.toInt + v.toInt)) :=
  type1Rule_of_encode (fun _ _ _ _ => rfl) (fun _ _ _ _ => rfl) fun ra _ v s =>
    congrArg (writeReg ra · s) (add_sext_eq_wrap _ v (by decide))

theorem type1Rule_ori : Type1Rule (place 2#5 27) .ori (fun b v => b ||| v.signExtend 32) :=
  type1Rule_of_encode (fun _ _ _ _ => rfl) (fun _ _ _ _ => rfl) fun _ _ _ _ => rfl

theorem type1Rule_andi : Type1Rule (place 4#5 27) .andi (fun b v => b &&& v.signExtend 32) :=
  type1Rule_of_encode (fun _ _ _ _ => rfl) (fun _ _ _ _ => rfl) fun _ _ _ _ => rfl

/-- MOVI's word leaves out rb (D4). -/
theorem encodeI1_rb_zero (op : BitVec 5) (ra : Reg) (imm17 : BitVec 17) :
    encodeI1 op ra 0#5 imm17 = place op 27 ||| place ra 22 ||| place imm17 0 := by
  rw [encodeI1, place_zero, BitVec.or_zero]

theorem decode_movi (c : Config) (ra : Reg) (imm17 : BitVec 17) :
    decodeWord c (place 6#5 27 ||| place ra 22 ||| place imm17 0) = .instr (.movi ra imm17) := by
  rw [← encodeI1_rb_zero]
  exact decode_encode (i := .movi ra imm17) rfl

/-! ## Type-2 immediates, in the layout of D5 -/

/-- The operand whose mode has the 2-bit code `mode`. -/
def type2Operands (mode : BitVec 2) (imm10 : BitVec 10) (shamt : BitVec 5) : Type2 :=
  ⟨ShiftMode.ofCode mode, imm10, shamt⟩

theorem type2Value_type2Operands (mode : BitVec 2) (imm10 : BitVec 10) (shamt : BitVec 5) :
    type2Value (type2Operands mode imm10 shamt) = shiftedImmediate mode imm10 shamt := by
  obtain ⟨m, rfl⟩ : ∃ m : ShiftMode, m.code = mode := ⟨_, ShiftMode.code_ofCode mode⟩
  rw [type2Operands, ShiftMode.ofCode_code]
  cases m <;> rfl

theorem encodeType2_type2Operands (mode : BitVec 2) (imm10 : BitVec 10) (shamt : BitVec 5) :
    encodeType2 .modeImmShamt (type2Operands mode imm10 shamt) = place mode 15 ||| place imm10 5 ||| place shamt 0 := by
  simp only [encodeType2, type2Operands, ShiftMode.code_ofCode, Type2Layout.modeLo, Type2Layout.immLo,
    Type2Layout.shamtLo]

/-- A type-2 instruction that writes `f` of its register and its shifted immediate. -/
theorem type2Rule_of_encode {op : BitVec 5} {mk : Reg → Reg → Type2 → Instr} {f : Word → Word → Word}
    (hwf : ∀ c ra rb t, (mk ra rb t).wellFormed c = true)
    (hword : ∀ c ra rb t, encode c (mk ra rb t) = encodeI2 c op ra rb t)
    (hexec : ∀ ra rb t s, exec (mk ra rb t) s = writeReg ra (f (s.reg rb) (type2Value t)) s) :
    Type2Rule (place op 27) mk f := by
  intro c ra rb mode imm10 shamt hlayout
  refine ⟨type2Operands mode imm10 shamt, ?_, fun s => ?_⟩
  · have hdecode := decode_encode (hwf c ra rb (type2Operands mode imm10 shamt))
    rw [hword, encodeI2, hlayout, encodeType2_type2Operands, ← BitVec.or_assoc, ← BitVec.or_assoc] at hdecode
    exact hdecode
  · rw [← type2Value_type2Operands]
    exact writes_of_writeReg (hexec ra rb _ s)

theorem type2Rule_addi2 : Type2Rule (place 1#5 27) .addi2 (fun b v => wrap (b.toInt + v.toInt)) :=
  type2Rule_of_encode (fun _ _ _ _ => rfl) (fun _ _ _ _ => rfl) fun ra _ _ s =>
    congrArg (writeReg ra · s) (add_eq_wrap _ _)

theorem type2Rule_ori2 : Type2Rule (place 3#5 27) .ori2 (fun b v => b ||| v) :=
  type2Rule_of_encode (fun _ _ _ _ => rfl) (fun _ _ _ _ => rfl) fun _ _ _ _ => rfl

theorem type2Rule_andi2 : Type2Rule (place 5#5 27) .andi2 (fun b v => b &&& v) :=
  type2Rule_of_encode (fun _ _ _ _ => rfl) (fun _ _ _ _ => rfl) fun _ _ _ _ => rfl

theorem decode_movi2 {c : Config} (hlayout : c.type2Layout = .modeImmShamt) (ra : Reg) (mode : BitVec 2)
    (imm10 : BitVec 10) (shamt : BitVec 5) :
    decodeWord c (place 7#5 27 ||| place ra 22 ||| place mode 15 ||| place imm10 5 ||| place shamt 0) =
      .instr (.movi2 ra (type2Operands mode imm10 shamt)) := by
  have hdecode := decode_encode (c := c) (i := .movi2 ra (type2Operands mode imm10 shamt)) rfl
  rw [encode, encodeI2, place_zero, BitVec.or_zero, hlayout, encodeType2_type2Operands, ← BitVec.or_assoc,
    ← BitVec.or_assoc] at hdecode
  exact hdecode

theorem writes_movi2 (ra : Reg) (mode : BitVec 2) (imm10 : BitVec 10) (shamt : BitVec 5) (s : State) :
    Writes (.movi2 ra (type2Operands mode imm10 shamt)) s ra (shiftedImmediate mode imm10 shamt) := by
  rw [← type2Value_type2Operands]
  exact writes_of_writeReg rfl

/-! ## ADD, SUB, NEG, ASR, ROR -/

theorem binaryRule_add : BinaryRule (place 8#5 27) .add (fun b c => wrap (b.toInt + c.toInt)) :=
  binaryRule_of_opcode (fun c w h => by simp [decodeFields, h]) (fun w h => by simp [unusedMask, h]) fun ra _ _ s =>
    congrArg (writeReg ra · s) (add_eq_wrap _ _)

theorem binaryRule_sub : BinaryRule (place 9#5 27) .sub (fun b c => wrap (b.toInt - c.toInt)) :=
  binaryRule_of_opcode (fun c w h => by simp [decodeFields, h]) (fun w h => by simp [unusedMask, h]) fun ra _ _ s =>
    congrArg (writeReg ra · s) (sub_eq_wrap _ _)

theorem unaryRule_neg : UnaryRule (place 11#5 27) .neg (fun c => wrap (0 - c.toInt)) :=
  unaryRule_of_opcode (fun c w h => by simp [decodeFields, h]) (fun w h => by simp [unusedMask, h]) fun ra _ s =>
    congrArg (writeReg ra · s) (sub_eq_wrap 0#32 _)

theorem shiftRule_asr : ShiftRule (place 15#5 27) .asr .asrR asr32 :=
  shiftRule_of_opcode (fun c w h => by simp [decodeFields, h]) (fun w h => by simp [unusedMask, h])
    (fun _ _ _ _ => rfl) fun _ _ _ _ => rfl

theorem shiftRule_ror : ShiftRule (place 18#5 27) .ror .rorR ror32 :=
  shiftRule_of_opcode (fun c w h => by simp [decodeFields, h]) (fun w h => by simp [unusedMask, h])
    (fun _ _ _ _ => rfl) fun _ _ _ _ => rfl

end Sys2Proof.Machine

open Sys2Proof Sys2Proof.Machine

/-- Settles O12: the three rules of the type-1 format, and MOVI, whose word has no rb. -/
theorem type1ImmediateResults : Obligations.Type1ImmediateResults :=
  ⟨type1Rule_addi, type1Rule_ori, type1Rule_andi, fun c ra imm17 _ =>
    ⟨decode_movi c ra imm17, writes_of_writeReg rfl⟩⟩

/-- Settles O13: the three rules of the type-2 format, and MOVI; the operand's mode is the one with the given code. -/
theorem type2ImmediateResults : Obligations.Type2ImmediateResults :=
  ⟨type2Rule_addi2, type2Rule_ori2, type2Rule_andi2, fun _ ra mode imm10 shamt hlayout =>
    ⟨type2Operands mode imm10 shamt, decode_movi2 hlayout ra mode imm10 shamt, writes_movi2 ra mode imm10 shamt⟩⟩

/-- Settles O14: the sums and differences of words are those of their signed values modulo 2^32. -/
theorem addSubNegResults : Obligations.AddSubNegResults :=
  ⟨binaryRule_add, binaryRule_sub, unaryRule_neg⟩

/-- Settles O17: the rules of the two shift functions, which are the floor division and the rotation. -/
theorem arithmeticShiftAndRotateResults : Obligations.ArithmeticShiftAndRotateResults := by
  unfold Obligations.ArithmeticShiftAndRotateResults
  simp only [← asr32_eq_wrap, ← ror32_eq_or]
  exact ⟨shiftRule_asr, shiftRule_ror⟩

end

section
/-! The delayed branch and the return from interrupt (R192, R252): where a transfer to a given address ends, and which
addresses MISALIGNED_PC accepts (R35). -/

namespace Sys2Proof.Machine

/-! ## Accepted targets -/

theorem targetOf_refused {c : Config} {a : Word} (hc : c.misalignedPc = .refuse) (ha : isAligned a = false) :
    targetOf c a = none := by
  simp [targetOf, ha, hc]

theorem addressOf_wordIndex (a : Word) : addressOf (wordIndex a) = a &&& 0xFFFFFFFC#32 := by
  have hmask : ∀ k < 32, (0xFFFFFFFC#32).getLsbD k = decide (2 ≤ k) := by decide
  apply BitVec.eq_of_getLsbD_eq
  intro k hk
  rw [addressOf, wordIndex, BitVec.getLsbD_append, BitVec.getLsbD_and, hmask k hk]
  by_cases h : k < 2
  · simp [h, Nat.not_le_of_lt h]
  · have hk2 : k - 2 < 30 := by omega
    have hle : 2 ≤ k := Nat.le_of_not_lt h
    simp [h, hk2, hle, Nat.add_sub_cancel' hle]

theorem targetOf_cleared {c : Config} {a : Word} (hc : c.misalignedPc = .clearBits) (ha : isAligned a = false) :
    targetOf c a = some (a &&& 0xFFFFFFFC#32) := by
  simp [targetOf, ha, hc, addressOf_wordIndex]

theorem targetOf_kept {c : Config} {a : Word} (hc : c.misalignedPc = .keepBits) : targetOf c a = some a := by
  simp [targetOf, hc]

theorem isAligned_eq_false {a : Word} (h : a.extractLsb' 0 2 ≠ 0#2) : isAligned a = false :=
  beq_eq_false_iff_ne.mpr h

theorem isAligned_eq_true {a : Word} (h : a.extractLsb' 0 2 = 0#2) : isAligned a = true :=
  beq_iff_eq.mpr h

/-! ## The two ways to transfer control -/

section Transfer

variable {s : State} {target a : Word}

theorem delayedBranch_in_slot (hs : s.slot ≠ none) : delayedBranch target s = .refused .transferInDelaySlot := by
  simp [delayedBranch, Option.isSome_iff_ne_none.mpr hs]

theorem delayedBranch_accepted (hs : s.slot = none) (ht : targetOf s.config target = some a) :
    delayedBranch target s = .next (s.setBt (some a)) := by
  simp [delayedBranch, hs, ht]

theorem delayedBranch_misaligned (hs : s.slot = none) (ht : targetOf s.config target = none) :
    delayedBranch target s = .refused .misalignedTarget := by
  simp [delayedBranch, hs, ht]

theorem interruptReturn_in_slot (hs : s.slot ≠ none) : interruptReturn s = .refused .transferInDelaySlot := by
  simp [interruptReturn, Option.isSome_iff_ne_none.mpr hs]

theorem interruptReturn_accepted (hs : s.slot = none) (ht : targetOf s.config (s.reg ipc) = some a) :
    interruptReturn s = .next ((s.setPc a).setIe true) := by
  simp [interruptReturn, hs, ht]

theorem interruptReturn_misaligned (hs : s.slot = none) (ht : targetOf s.config (s.reg ipc) = none) :
    interruptReturn s = .refused .misalignedTarget := by
  simp [interruptReturn, hs, ht]

end Transfer

end Sys2Proof.Machine

open Sys2Proof Sys2Proof.Machine

/-- Settles O11: the three outcomes of the primitive, in the order of R192. -/
theorem delayedBranchPrimitive : Obligations.DelayedBranchPrimitive := fun _ _ hc =>
  ⟨delayedBranch_in_slot, fun hs ht => delayedBranch_misaligned hs (targetOf_refused hc (isAligned_eq_false ht)),
    fun hs ht => delayedBranch_accepted hs (targetOf_aligned (isAligned_eq_true ht))⟩

/-- Settles O26: RFI's word, and the three outcomes of the return. -/
theorem returnFromInterruptRestoresPcAndEnables : Obligations.ReturnFromInterruptRestoresPcAndEnables := fun _ _ =>
  ⟨decode_encode (i := .rfi) rfl, fun hs ha => interruptReturn_accepted hs (targetOf_aligned ha),
    interruptReturn_in_slot, fun hs ha hc => interruptReturn_misaligned hs (targetOf_refused hc ha)⟩

/-- Settles O25: each word is its instruction's own, and each meaning sets IE alone. -/
theorem interruptEnableAndDisable : Obligations.InterruptEnableAndDisable := fun _ _ =>
  ⟨decode_encode (i := .ien) rfl, rfl, decode_encode (i := .ids) rfl, rfl⟩

end

section
/-! J and JL (R198, R199): both are the delayed branch to the relative address, JL on the state that holds the link. -/

namespace Sys2Proof.Machine

/-- The sum over the integers is the address that the meanings compute (D32). -/
theorem relativeAddress_eq (imm22 : BitVec 22) (s : State) : relativeAddress imm22 s = addressPc imm22 s :=
  (add_sext_eq_wrap s.pc imm22 (by decide)).symm

theorem decode_j (c : Config) (imm22 : BitVec 22) :
    decodeWord c (place 21#5 27 ||| place imm22 0) = .instr (.j imm22) := by
  have hdecode := decode_encode (c := c) (i := .j imm22) rfl
  rwa [encode, encodeJR, place_zero, BitVec.or_zero] at hdecode

end Sys2Proof.Machine

open Sys2Proof Sys2Proof.Machine

/-- Settles O21: J is the delayed branch to the relative address. -/
theorem jumpIsRelativeToCurrentPc : Obligations.JumpIsRelativeToCurrentPc := by
  intro c imm22 s
  rw [relativeAddress_eq]
  exact ⟨decode_j c imm22, fun hs ha => delayedBranch_accepted hs (targetOf_aligned ha), delayedBranch_in_slot,
    fun hs ha hc => delayedBranch_misaligned hs (targetOf_refused hc ha)⟩

/-- Settles O22: JL is the same delayed branch, from the state that holds the link. -/
theorem jumpAndLinkStoresCurrentPc : Obligations.JumpAndLinkStoresCurrentPc := by
  intro c ra imm22 s
  rw [relativeAddress_eq]
  refine ⟨decode_encode (i := .jl ra imm22) rfl, fun hs ha => ⟨s.setReg ra s.pc, ?_, State.setReg_reg_same s ra s.pc,
    onlyRegChanged_setReg s ra s.pc⟩, delayedBranch_in_slot (s := s.setReg ra s.pc),
    fun hs ha hc => delayedBranch_misaligned (s := s.setReg ra s.pc) hs (targetOf_refused hc ha)⟩
  exact delayedBranch_accepted (s := s.setReg ra s.pc) hs (targetOf_aligned ha)

end

section
/-! BR and BRL (R196, R197, R200): one lemma for each verdict of the condition. -/

namespace Sys2Proof.Machine

variable {s : State} {ra rb rc : Reg} {cond : Cond}

/-- Format B is format BL with zeros for ra. -/
theorem encodeBL_ra_zero (op : BitVec 5) (rb rc : Reg) (cond : Cond) :
    encodeBL op 0#5 rb rc cond = place op 27 ||| place rb 17 ||| place rc 12 ||| place cond.code 0 := by
  rw [encodeBL, place_zero, BitVec.or_zero]

theorem decode_br {c : Config} (h : (Instr.br rb rc cond).wellFormed c = true) :
    decodeWord c (place 19#5 27 ||| place rb 17 ||| place rc 12 ||| place cond.code 0) = .instr (.br rb rc cond) := by
  have hdecode := decode_encode h
  rwa [encode, encodeBL_ra_zero] at hdecode

theorem decode_brl {c : Config} (h : (Instr.brl ra rb rc cond).wellFormed c = true) :
    decodeWord c (place 20#5 27 ||| place ra 22 ||| place rb 17 ||| place rc 12 ||| place cond.code 0) =
      .instr (.brl ra rb rc cond) := by
  have hdecode := decode_encode h
  rwa [encode, encodeBL] at hdecode

theorem exec_br_not_taken (h : taken s.config cond (s.reg rc) = some false) : exec (.br rb rc cond) s = .next s :=
  congrArg (branchIf · (s.reg rb) s) h

theorem exec_br_taken (h : taken s.config cond (s.reg rc) = some true) :
    exec (.br rb rc cond) s = delayedBranch (s.reg rb) s :=
  congrArg (branchIf · (s.reg rb) s) h

theorem linkOverlaps_iff :
    linkOverlaps ra rb rc cond = true ↔ (cond ≠ .nv ∧ ra = rb) ∨ (testsRc cond = true ∧ ra = rc) := by
  simp [linkOverlaps]

/-- A BRL whose link register is no source reads the registers as they were. -/
theorem exec_brl (h : linkOverlaps ra rb rc cond = false) :
    exec (.brl ra rb rc cond) s = branchIf (taken s.config cond (s.reg rc)) (s.reg rb) (s.setReg ra s.pc) := by
  have hexec : exec (.brl ra rb rc cond) s = execBrl ra rb rc cond s := rfl
  rw [hexec, execBrl_of_accepted (by simp [h]), brlOperands_eq (by simp [h]), linkAndBranch_eq]

theorem exec_brl_not_taken (hover : linkOverlaps ra rb rc cond = false)
    (h : taken s.config cond (s.reg rc) = some false) : exec (.brl ra rb rc cond) s = .next (s.setReg ra s.pc) :=
  (exec_brl hover).trans (congrArg (branchIf · (s.reg rb) (s.setReg ra s.pc)) h)

theorem exec_brl_taken (hover : linkOverlaps ra rb rc cond = false) (h : taken s.config cond (s.reg rc) = some true) :
    exec (.brl ra rb rc cond) s = delayedBranch (s.reg rb) (s.setReg ra s.pc) :=
  (exec_brl hover).trans (congrArg (branchIf · (s.reg rb) (s.setReg ra s.pc)) h)

theorem writes_brl_not_taken (hover : linkOverlaps ra rb rc cond = false)
    (h : taken s.config cond (s.reg rc) = some false) : Writes (.brl ra rb rc cond) s ra s.pc :=
  writes_of_writeReg (exec_brl_not_taken hover h)

/-- Outside a delay slot and with an aligned target, the link and then the branch complete. -/
theorem linkAndBranch_aligned {old : State} {b : Bool} (hs : s.slot = none) (ha : isAligned (old.reg rb) = true)
    (hv : taken s.config cond (old.reg rc) = some b) :
    linkAndBranch old ra rb rc cond s =
      .next ((s.setReg ra s.pc).setBt (if b then some (old.reg rb) else s.bt)) := by
  rw [linkAndBranch_eq, hv]
  cases b with
  | false => rfl
  | true => exact delayedBranch_accepted (s := s.setReg ra s.pc) hs (targetOf_aligned ha)

/-- Under `oldValues` an overlapping BRL reads the registers as they were (log 17). -/
theorem exec_brl_oldValues (hc : s.config.brlOverlap = .oldValues) :
    exec (.brl ra rb rc cond) s = linkAndBranch s ra rb rc cond s := by
  have hexec := execBrl_of_accepted (ra := ra) (rb := rb) (rc := rc) (cond := cond) (s := s) (by simp [hc])
  rwa [brlOperands_eq (by simp [hc])] at hexec

/-- Under `newValues` an overlapping BRL reads the registers with the link written (log 17). -/
theorem exec_brl_newValues (hover : linkOverlaps ra rb rc cond = true) (hc : s.config.brlOverlap = .newValues) :
    exec (.brl ra rb rc cond) s = linkAndBranch (s.setReg ra s.pc) ra rb rc cond s := by
  have hexec := execBrl_of_accepted (ra := ra) (rb := rb) (rc := rc) (cond := cond) (s := s) (by simp [hc])
  rwa [brlOperands, if_pos ⟨hover, hc⟩] at hexec

theorem reg_after_link (s : State) (ra r : Reg) : (s.setReg ra s.pc).reg r = if ra = r then s.pc else s.reg r := by
  rw [State.setReg_reg]
  simp only [eq_comm]

/-- `not-taken` is the named alternative of D10. -/
theorem taken_reserved (hc : s.config.reservedCond = .notTaken) (hcond : cond = .reserved6 ∨ cond = .reserved7)
    (v : Word) : taken s.config cond v = some false := by
  rcases hcond with rfl | rfl <;> simp [taken, hc]

theorem linkOverlaps_reserved (hcond : cond = .reserved6 ∨ cond = .reserved7) (h : ra ≠ rb) :
    linkOverlaps ra rb rc cond = false := by
  rcases hcond with rfl | rfl <;> simp [linkOverlaps, testsRc, h]

end Sys2Proof.Machine

open Sys2Proof Sys2Proof.Machine

/-- Settles O18: BR's word, and its outcome for each verdict of the condition. -/
theorem brBranchesWhenTheConditionHolds : Obligations.BrBranchesWhenTheConditionHolds := by
  intro rb rc cond s hwf
  refine ⟨decode_br hwf, exec_br_not_taken, fun h hs ha => ?_, fun h hs => ?_, fun h hs ha hc => ?_⟩
  · exact (exec_br_taken h).trans (delayedBranch_accepted hs (targetOf_aligned ha))
  · exact (exec_br_taken h).trans (delayedBranch_in_slot hs)
  · exact (exec_br_taken h).trans (delayedBranch_misaligned hs (targetOf_refused hc ha))

/-- Settles O19: BRL's word, and its outcome for each verdict of the condition, from the state that holds the link. -/
theorem brlLinksAlwaysAndBranchesWhenTheConditionHolds :
    Obligations.BrlLinksAlwaysAndBranchesWhenTheConditionHolds := by
  intro ra rb rc cond s hwf
  refine ⟨decode_brl hwf, fun hb hc => ?_⟩
  have hover : linkOverlaps ra rb rc cond = false := by
    rw [← Bool.not_eq_true, linkOverlaps_iff]
    exact not_or.mpr ⟨hb, hc⟩
  refine ⟨writes_brl_not_taken hover, fun h hs ha => ?_, fun h hs => ?_, fun h hs ha hc => ?_⟩
  · refine ⟨s.setReg ra s.pc, ?_, State.setReg_reg_same s ra s.pc, onlyRegChanged_setReg s ra s.pc⟩
    exact (exec_brl_taken hover h).trans (delayedBranch_accepted hs (targetOf_aligned ha))
  · exact (exec_brl_taken hover h).trans (delayedBranch_in_slot hs)
  · exact (exec_brl_taken hover h).trans (delayedBranch_misaligned hs (targetOf_refused hc ha))

/-- Settles O20: the refusal, and the link and branch with the operands read before and after the link. -/
theorem overlappingBrlIsRefusedOrReadsOldOrNewValues : Obligations.OverlappingBrlIsRefusedOrReadsOldOrNewValues := by
  intro ra rb rc cond s hsource
  have hover := linkOverlaps_iff.mpr hsource
  refine ⟨fun hc => execBrl_of_refused ⟨hover, hc⟩, fun hs hpc ha => ⟨fun hc b hv => ?_, fun hc b hv => ?_⟩⟩
  · refine ⟨s.setReg ra s.pc, ?_, State.setReg_reg_same s ra s.pc, onlyRegChanged_setReg s ra s.pc⟩
    exact (exec_brl_oldValues hc).trans (linkAndBranch_aligned hs ha hv)
  · refine ⟨s.setReg ra s.pc, ?_, State.setReg_reg_same s ra s.pc, onlyRegChanged_setReg s ra s.pc⟩
    rw [← reg_after_link] at hv ⊢
    have htarget : isAligned ((s.setReg ra s.pc).reg rb) = true := by
      rw [reg_after_link]
      split
      · exact hpc
      · exact ha
    exact (exec_brl_newValues hover hc).trans (linkAndBranch_aligned hs htarget hv)

end

section
/-! Every instruction that transfers control, in one shape (R34, R190, R201): what becomes of it is decided by the delay
slot and by MISALIGNED_PC alone. -/

namespace Sys2Proof.Machine

variable {i : Instr} {s : State} {target a : Word}

/-- A transfer is the delayed branch to its target, after a link or not, or the return from interrupt. -/
theorem exec_transfer (ht : transferTarget s i = some target) (hover : overlappingBrl i = false) :
    (i ≠ .rfi ∧ ∃ s', exec i s = delayedBranch target s' ∧ s'.slot = s.slot ∧ s'.config = s.config) ∨
      (i = .rfi ∧ exec i s = interruptReturn s ∧ target = s.reg ipc) := by
  cases i with
  | j | jl =>
    obtain rfl := Option.some.inj ht
    exact .inl ⟨nofun, _, rfl, rfl, rfl⟩
  | br rb rc cond =>
    obtain ⟨htaken, htarget⟩ := Option.ite_none_right_eq_some.mp ht
    obtain rfl := Option.some.inj htarget
    exact .inl ⟨nofun, s, exec_br_taken htaken, rfl, rfl⟩
  | brl ra rb rc cond =>
    obtain ⟨htaken, htarget⟩ := Option.ite_none_right_eq_some.mp ht
    obtain rfl := Option.some.inj htarget
    exact .inl ⟨nofun, s.setReg ra s.pc, exec_brl_taken hover htaken, rfl, rfl⟩
  | rfi => exact .inr ⟨rfl, rfl, (Option.some.inj ht).symm⟩
  | _ => cases ht

section

variable (ht : transferTarget s i = some target) (hover : overlappingBrl i = false)
include ht hover

theorem exec_transfer_in_slot (hs : s.slot ≠ none) : exec i s = .refused .transferInDelaySlot := by
  obtain ⟨-, s', hexec, hslot, -⟩ | ⟨-, hexec, -⟩ := exec_transfer ht hover
  · exact hexec.trans (delayedBranch_in_slot (hslot ▸ hs))
  · exact hexec.trans (interruptReturn_in_slot hs)

theorem exec_transfer_misaligned (hs : s.slot = none) (hnone : targetOf s.config target = none) :
    exec i s = .refused .misalignedTarget := by
  obtain ⟨-, s', hexec, hslot, hconfig⟩ | ⟨-, hexec, rfl⟩ := exec_transfer ht hover
  · exact hexec.trans (delayedBranch_misaligned (hslot.trans hs) (hconfig ▸ hnone))
  · exact hexec.trans (interruptReturn_misaligned hs hnone)

/-- An accepted target is in PC at once for RFI, and pending for the others. -/
theorem exec_transfer_accepted (hs : s.slot = none) (ha : targetOf s.config target = some a) :
    ∃ t, exec i s = .next t ∧ if i = .rfi then t.pc = a else t.bt = some a := by
  obtain ⟨hi, s', hexec, hslot, hconfig⟩ | ⟨rfl, hexec, rfl⟩ := exec_transfer ht hover
  · exact ⟨_, hexec.trans (delayedBranch_accepted (hslot.trans hs) (hconfig ▸ ha)), (if_neg hi).mpr rfl⟩
  · exact ⟨_, hexec.trans (interruptReturn_accepted hs ha), (if_pos rfl).mpr rfl⟩

end

end Sys2Proof.Machine

open Sys2Proof Sys2Proof.Machine

/-- Settles O35: every transfer is refused in a slot; a branch not taken is none. -/
theorem controlTransferInADelaySlotIsRefused : Obligations.ControlTransferInADelaySlotIsRefused := fun _ hs =>
  ⟨fun _ _ ht hover => exec_transfer_in_slot ht hover hs, fun _ _ _ => exec_br_not_taken,
    fun _ _ _ _ h hover => writes_brl_not_taken hover h⟩

/-- Settles O36: what MISALIGNED_PC makes of the target, for each of its values. -/
theorem misalignedTargetIsRefusedOrAdjusted : Obligations.MisalignedTargetIsRefusedOrAdjusted :=
  fun _ _ _ hs ht hover ha =>
    ⟨fun hc => exec_transfer_misaligned ht hover hs (targetOf_refused hc ha),
      fun hc => exec_transfer_accepted ht hover hs (targetOf_cleared hc ha),
      fun hc => exec_transfer_accepted ht hover hs (targetOf_kept hc)⟩

end

section
/-! The step at each kind of boundary (R42, C0 to C2): one equation for each, and what a quiet step does with the word
at PC. -/

namespace Sys2Proof.Machine

variable {s : State}

theorem step_reset (h : s.pins.rst = true) : step s = .next (resetEvent s.sampled) := by
  simp [step, boundary, h]

theorem step_entry (h : boundary s = .entry) : step s = .next (interruptEntry s.sampled) := by
  simp [step, h]

theorem step_refuse (h : boundary s = .refuse) : step s = .refused .irqInDelaySlot := by
  simp [step, h]

theorem step_run (h : boundary s = .run) : step s = runInstr s.sampled := by
  simp [step, h]

/-- A quiet step on a reserved word is refused under the word's own name (R100). -/
theorem step_of_reserved {w : Word} {r : Reserved} (hq : Quiet s) (hf : Fetches s w)
    (hd : decodeWord s.config w = .reserved r) : step s = .refused (reservedRefusal r) := by
  have hf' : Fetches s.sampled w := ⟨hf.aligned, hf.present, hf.word⟩
  simp only [step_run (boundary_of_quiet hq), runInstr, fetch_of_fetches hf', State.sampled_config, hd]

theorem step_of_instr {w : Word} {i : Instr} (hq : Quiet s) (hf : Fetches s w) (hd : decodeWord s.config w = .instr i) :
    step s = retireOutcome (exec i (issue w s.sampled)) := by
  have hf' : Fetches s.sampled w := ⟨hf.aligned, hf.present, hf.word⟩
  simp only [step_run (boundary_of_quiet hq), runInstr, fetch_of_fetches hf', State.sampled_config, hd]

/-- D18: the four conditions of an entry. -/
theorem boundary_entry_iff :
    boundary s = .entry ↔ s.pins.rst = false ∧ s.pins.ireq = true ∧ s.ie = true ∧ s.bt = none := by
  constructor
  · intro h
    obtain ⟨hrst, hie, hireq, hbt⟩ := boundary_entry h
    exact ⟨hrst, hireq, hie, hbt⟩
  · rintro ⟨hrst, hireq, hie, hbt⟩
    simp [boundary, hrst, hireq, hie, hbt]

end Sys2Proof.Machine

open Sys2Proof Sys2Proof.Machine

/-- Settles O5: each listed word evaluates. -/
theorem specWordsDecodeAsListed : Obligations.SpecWordsDecodeAsListed :=
  ⟨rfl, rfl, rfl, rfl, rfl, rfl, rfl, rfl, rfl, rfl, rfl, rfl⟩

/-- Settles O6: such a word is reserved, and the step names it. -/
theorem opcode28IsRefused : Obligations.Opcode28IsRefused :=
  fun _ _ hq hf hop => step_of_reserved hq hf (decodeWord_opcode28.mpr hop)

/-- Settles O7: the refusal of such a word, and the two meanings under `not-taken`. -/
theorem reservedCondIsRefusedOrNeverTaken : Obligations.ReservedCondIsRefusedOrNeverTaken :=
  ⟨fun _ _ hc hq hf hop hcond => step_of_reserved hq hf (decodeWord_cond.mpr ⟨hc, hop, hcond⟩),
    fun _ _ _ _ _ hc hcond => ⟨exec_br_not_taken (taken_reserved hc hcond _), fun hne =>
      writes_brl_not_taken (linkOverlaps_reserved hcond hne) (taken_reserved hc hcond _)⟩⟩

/-- Settles O32: the step is the instruction on the issued state, retired. -/
theorem stepRunsTheDecodedInstruction : Obligations.StepRunsTheDecodedInstruction :=
  fun _ _ _ hq hf hd => step_of_instr hq hf hd

/-- Settles O38: the reset event, whose state has IE 0 and so is quiet when RST is low. -/
theorem resetEventOverridesEverything : Obligations.ResetEventOverridesEverything := fun s h =>
  ⟨resetEvent s.sampled, step_reset h, rfl, rfl, rfl, rfl, rfl, rfl, rfl, rfl, rfl, fun hrst => ⟨hrst, .inl rfl⟩⟩

/-- Settles O39: the step is `interruptEntry`, whose registers are given by `interruptEntry_reg`. -/
theorem interruptEntrySavesPcAndClearsIe : Obligations.InterruptEntrySavesPcAndClearsIe := by
  intro s hrst hireq hie hbt
  refine ⟨_, step_entry (boundary_entry_iff.mpr ⟨hrst, hireq, hie, hbt⟩), ?_, rfl, rfl, rfl, fun r hr => ?_, rfl, hbt,
    rfl, fun _ => rfl, fun _ => rfl, rfl, rfl, rfl⟩
  · exact (interruptEntry_reg s.sampled 31#5).trans (if_pos rfl)
  · exact (interruptEntry_reg s.sampled r).trans (if_neg hr)

end

section
/-! Requests that are not taken at their boundary (R263, R269): with IE 0 they are ignored, with a branch pending they
are refused or held. -/

namespace Sys2Proof.Machine

variable {s : State} {rest : List Pins}

/-- A request whose boundary runs an instruction makes no difference: its sample is used up all the same. -/
theorem step_ignores_request (h : boundary { s with inputs := ⟨false, true⟩ :: rest } = .run) :
    step { s with inputs := ⟨false, true⟩ :: rest } = step { s with inputs := ⟨false, false⟩ :: rest } := by
  have hquiet : boundary { s with inputs := ⟨false, false⟩ :: rest } = .run := boundary_of_quiet ⟨rfl, .inr rfl⟩
  rw [step_run h, step_run hquiet]
  rfl

theorem boundary_disabled (h : s.ie = false) : boundary { s with inputs := ⟨false, true⟩ :: rest } = .run :=
  boundary_of_quiet ⟨rfl, .inl h⟩

theorem boundary_pending {target : Word} (hp : s.pins = ⟨false, true⟩) (hie : s.ie = true) (hbt : s.bt = some target) :
    boundary s = match s.config.irqInDelaySlot with
      | .refuse => .refuse
      | .hold => .run := by
  cases hc : s.config.irqInDelaySlot <;> simp [boundary, hp, hie, hbt, hc]

theorem boundary_held {target : Word} (hie : s.ie = true) (hbt : s.bt = some target)
    (hc : s.config.irqInDelaySlot = .hold) : boundary { s with inputs := ⟨false, true⟩ :: rest } = .run := by
  simpa [hc] using boundary_pending (s := { s with inputs := ⟨false, true⟩ :: rest }) rfl hie hbt

/-- The state lists the sample that its pins show, unless they are idle. -/
theorem inputs_of_pins {p : Pins} (h : s.pins = p) (hp : p ≠ .idle) : s = { s with inputs := p :: s.inputs.tail } := by
  cases hin : s.inputs with
  | nil => exact absurd (by simpa [State.pins, hin] using h.symm) hp
  | cons q rest =>
    obtain rfl : q = p := by simpa [State.pins, hin] using h
    cases s
    cases hin
    rfl

/-- Under `hold` the step runs the delay slot: control is then at the target. -/
theorem held_step {t : State} {target : Word} (hp : s.pins = ⟨false, true⟩) (hie : s.ie = true)
    (hbt : s.bt = some target) (hc : s.config.irqInDelaySlot = .hold) (h : step s = .next t) :
    t.pc = target ∧ t.bt = none := by
  rw [inputs_of_pins hp (by decide), step_ignores_request (boundary_held hie hbt hc)] at h
  exact quiet_step_of_branch ⟨rfl, .inr rfl⟩ h hbt

end Sys2Proof.Machine

open Sys2Proof Sys2Proof.Machine

/-- Settles O40: the conditions of an entry, and a disabled request makes no difference. -/
theorem requestIsIgnoredWhileDisabled : Obligations.RequestIsIgnoredWhileDisabled :=
  ⟨fun _ => boundary_entry_iff, fun _ _ hie => step_ignores_request (boundary_disabled hie)⟩

/-- Settles O41: refused; held; and the entry after the delay slot saves the branch's target. -/
theorem requestBetweenBranchAndDelaySlot : Obligations.RequestBetweenBranchAndDelaySlot := by
  refine ⟨fun s target hp hie hbt hc => ?_, fun s target rest hie hbt hc => ?_,
    fun s t target hp hie hbt hc h htie htp => ?_⟩
  · exact step_refuse (by rw [boundary_pending hp hie hbt, hc])
  · exact step_ignores_request (boundary_held hie hbt hc)
  · obtain ⟨hpc, hnone⟩ := held_step hp hie hbt hc h
    have hentry : boundary t = .entry := boundary_entry_iff.mpr ⟨by rw [htp], by rw [htp], htie, hnone⟩
    refine ⟨_, step_entry hentry, ?_, ?_, rfl⟩
    · rw [interruptEntry_reg]
      exact hpc
    · rw [← step_config h]
      rfl

end

section
/-! What an interrupt leaves behind (R267, R271): the saved PC that RFI restores, and one IACK event. -/

namespace Sys2Proof.Machine

/-- An address from which an instruction may be fetched is accepted as it stands. -/
theorem targetOf_of_alignedUnlessKept {c : Config} {a : Word} (h : AlignedUnlessKept c a) : targetOf c a = some a :=
  h.elim targetOf_kept targetOf_aligned

/-- A quiet RFI outside a delay slot passes control to IPC and sets IE; registers and data memory are kept. -/
theorem step_rfi {s : State} (hq : Quiet s) (hbt : s.bt = none) (hf : FetchesInstr s .rfi)
    (hipc : AlignedUnlessKept s.config (s.reg ipc)) :
    ∃ t, step s = .next t ∧ t.pc = s.reg ipc ∧ t.ie = true ∧ (∀ r, t.reg r = s.reg r) ∧ t.dmem = s.dmem := by
  obtain ⟨w, hstep⟩ := step_of_fetchesInstr hq hf
  have hexec := interruptReturn_accepted (s := issue w s.sampled) (a := s.reg ipc) hbt
    (targetOf_of_alignedUnlessKept hipc)
  have hslot : (((issue w s.sampled).setPc (s.reg ipc)).setIe true).slot = none := hbt
  refine ⟨_, hstep.trans (congrArg retireOutcome hexec), ?_, retire_ie _, fun r => retire_reg _ r, retire_dmem _⟩
  rw [retire_none hslot]
  rfl

theorem Effect.outputs {i : Instr} {s t : State} (h : Effect i s t) :
    t.outputs = s.outputs ∨ ∃ k v, t.outputs = s.outputs ++ [.deviceWrite k v] := by
  cases h with
  | deviceStore ea v => exact .inr ⟨wordIndex ea, v, rfl⟩
  | _ => exact .inl rfl

/-- An entry adds the IACK event, any other step at most a device's word. -/
theorem step_outputs {s t : State} (h : step s = .next t) :
    (boundary s = .entry ∧ t.outputs = s.outputs ++ [.iack]) ∨
      (boundary s ≠ .entry ∧ (t.outputs = s.outputs ∨ ∃ k v, t.outputs = s.outputs ++ [.deviceWrite k v])) := by
  obtain ⟨hb, rfl⟩ | ⟨hb, rfl⟩ | ⟨hb, w, i, u, -, -, hu, rfl⟩ := step_cases h
  · exact .inr ⟨by simp [hb], .inl rfl⟩
  · exact .inl ⟨hb, rfl⟩
  · rw [retire_outputs]
    exact .inr ⟨by simp [hb], (exec_effect hu).outputs⟩

end Sys2Proof.Machine

open Sys2Proof Sys2Proof.Machine

/-- Settles O42: the entry saved PC, which the invariant makes an address that RFI accepts. -/
theorem returnResumesTheInterruptedProgram : Obligations.ReturnResumesTheInterruptedProgram := by
  intro s t u hinv hb hst hq hbt hconfig hipc hf
  have hsaved : u.reg ipc = s.pc := by
    cases (step_entry hb).symm.trans hst
    exact hipc.trans ((interruptEntry_reg s.sampled ipc).trans (if_pos rfl))
  have haligned : AlignedUnlessKept u.config (u.reg ipc) := by
    rw [hsaved, hconfig]
    exact hinv.pc_aligned
  obtain ⟨v, hstep, hpc, hie, hregs, hdmem⟩ := step_rfi hq hbt hf haligned
  obtain ⟨-, hie', -, -⟩ := boundary_entry hb
  exact ⟨v, hstep, hpc.trans hsaved, hie.trans hie'.symm, hregs, hdmem⟩

/-- Settles O43: by what each kind of step adds to the outputs. -/
theorem oneAcknowledgePerEntry : Obligations.OneAcknowledgePerEntry := by
  intro s t h
  obtain ⟨hb, hout⟩ | ⟨hb, hout | ⟨k, v, hout⟩⟩ := step_outputs h
  · simp [hb, hout]
  · simp [hb, hout]
  · simp [hb, hout]

end

section
/-! Data accesses (R62 to R70): where a load or a store of a given address ends. -/

namespace Sys2Proof.Machine

/-! ## The low two address bits (R64) -/

theorem wordIndex_addressOf (k : WordIndex) : wordIndex (addressOf k) = k := by
  apply BitVec.eq_of_getLsbD_eq
  intro j hj
  rw [wordIndex, addressOf, BitVec.getLsbD_extractLsb', BitVec.getLsbD_append,
    if_neg (Nat.not_lt.mpr (Nat.le_add_right 2 j)), Nat.add_sub_cancel_left]
  simp [hj]

theorem wordIndex_cleared (ea : Word) : wordIndex (ea &&& 0xFFFFFFFC#32) = wordIndex ea := by
  rw [← addressOf_wordIndex, wordIndex_addressOf]

theorem misalignedDataRefused_ignoreBits {c : Config} (hc : c.misalignedData = .ignoreBits) (ea : Word) :
    misalignedDataRefused c ea = false := by
  simp [misalignedDataRefused, hc]

theorem misalignedDataRefused_of_accepted {c : Config} {ea : Word}
    (h : c.misalignedData = .refuse → isAligned ea = true) : misalignedDataRefused c ea = false := by
  unfold misalignedDataRefused
  by_cases hc : c.misalignedData = .refuse <;> simp [hc, h]

section Access

variable {s : State} {ea : Word}

/-- Where the bits are ignored, a load depends on the word index alone. -/
theorem loadWord_ignoreBits (hc : s.config.misalignedData = .ignoreBits) (ra : Reg) (ea : Word) :
    loadWord ra ea s = loadWord ra (ea &&& 0xFFFFFFFC#32) s := by
  simp only [loadWord, misalignedDataRefused_ignoreBits hc, wordIndex_cleared]

theorem storeWord_ignoreBits (hc : s.config.misalignedData = .ignoreBits) (ea v : Word) :
    storeWord ea v s = storeWord (ea &&& 0xFFFFFFFC#32) v s := by
  simp only [storeWord, misalignedDataRefused_ignoreBits hc, wordIndex_cleared]

theorem loadWord_misaligned (hc : s.config.misalignedData = .refuse) (ha : isAligned ea = false) (ra : Reg) :
    loadWord ra ea s = .refused .misalignedData := by
  simp [loadWord, misalignedDataRefused, hc, ha]

theorem storeWord_misaligned (hc : s.config.misalignedData = .refuse) (ha : isAligned ea = false) (v : Word) :
    storeWord ea v s = .refused .misalignedData := by
  simp [storeWord, misalignedDataRefused, hc, ha]

/-! ## Absent memory and devices (R68, R70) -/

variable (h : s.config.misalignedData = .refuse → isAligned ea = true)
include h

theorem loadWord_stuck (hd : implemented s.config.dmemRange (wordIndex ea) = false) (ra : Reg) :
    loadWord ra ea s = .fault .stuckData := by
  simp [loadWord, misalignedDataRefused_of_accepted h, hd]

theorem storeWord_stuck (hd : implemented s.config.dmemRange (wordIndex ea) = false) (v : Word) :
    storeWord ea v s = .fault .stuckData := by
  simp [storeWord, misalignedDataRefused_of_accepted h, hd]

theorem loadWord_device (hd : implemented s.config.dmemRange (wordIndex ea) = true)
    (hdev : implemented s.config.deviceRange (wordIndex ea) = true) (ra : Reg) :
    loadWord ra ea s = .next (s.drawn.setReg ra s.fresh) := by
  simp [loadWord, misalignedDataRefused_of_accepted h, hd, hdev]

theorem storeWord_device (hd : implemented s.config.dmemRange (wordIndex ea) = true)
    (hdev : implemented s.config.deviceRange (wordIndex ea) = true) (v : Word) :
    storeWord ea v s = .next (s.emit (.deviceWrite (wordIndex ea) v)) := by
  simp [storeWord, misalignedDataRefused_of_accepted h, hd, hdev]

end Access

/-- Every instruction with a data address outside DMEM_RANGE is stuck (D26). -/
theorem exec_data_stuck {i : Instr} {s : State} {ea : Word}
    (haddress : loadAddress s i = some ea ∨ storeAddress s i = some ea)
    (halign : s.config.misalignedData = .refuse → isAligned ea = true)
    (hd : implemented s.config.dmemRange (wordIndex ea) = false) : exec i s = .fault .stuckData := by
  rcases haddress with hl | hs
  · obtain ⟨ra, -, hexec⟩ := exec_load hl
    exact hexec.trans (loadWord_stuck halign hd ra)
  · obtain ⟨v, hexec⟩ := exec_store hs
    exact hexec.trans (storeWord_stuck halign hd v)

theorem fetch_stuck {s : State} (ha : AlignedUnlessKept s.config s.pc)
    (hp : implemented s.config.pmemRange (wordIndex s.pc) = false) : fetch s = .stuck := by
  have hm : (!isAligned s.pc && s.config.misalignedPc != .keepBits) = false := by
    rcases ha with ha | ha <;> simp [ha]
  simp [fetch, hm, hp]

theorem step_stuck {s : State} (hq : Quiet s) (ha : AlignedUnlessKept s.config s.pc)
    (hp : implemented s.config.pmemRange (wordIndex s.pc) = false) : step s = .fault .stuckFetch := by
  simp only [step_run (boundary_of_quiet hq), runInstr, fetch_stuck (s := s.sampled) ha hp]

end Sys2Proof.Machine

open Sys2Proof Sys2Proof.Machine

/-- Settles O27: with the bits ignored only the word index matters; with the alternative they are looked at first. -/
theorem lowAddressBitsAreIgnoredOrRefused : Obligations.LowAddressBitsAreIgnoredOrRefused := fun ra ea v _ =>
  ⟨fun hc => ⟨loadWord_ignoreBits hc ra ea, storeWord_ignoreBits hc ea v⟩, fun hc hlow =>
    ⟨loadWord_misaligned hc (isAligned_eq_false hlow) ra, storeWord_misaligned hc (isAligned_eq_false hlow) v⟩⟩

/-- Settles O28: the fetch, and the one load or store behind every instruction that has a data address. -/
theorem accessOutsideImplementedMemoryIsStuck : Obligations.AccessOutsideImplementedMemoryIsStuck :=
  ⟨fun _ => step_stuck, fun _ _ _ => exec_data_stuck⟩

/-- Settles O29: a device load draws the value it writes, a device store emits the register it stores. -/
theorem deviceAccessCompletes : Obligations.DeviceAccessCompletes := by
  intro i s ea halign hd hdev
  refine ⟨fun hl => ?_, fun ra hi hs => ?_⟩
  · obtain ⟨ra, hw, hexec⟩ := exec_load hl
    exact ⟨s.setReg ra s.fresh, ra, hexec.trans (loadWord_device halign hd hdev ra), hw, onlyRegChanged_setReg _ _ _⟩
  · obtain ⟨rb, imm17, rfl⟩ | ⟨imm22, rfl⟩ := hi <;> obtain rfl := Option.some.inj hs
    · exact storeWord_device halign hd hdev _
    · exact storeWord_device halign hd hdev _

end

section
/-! LD, LDR, LEA, ST, STR (R221 to R226): the addresses over the integers, and the accesses to plain memory. -/

namespace Sys2Proof.Machine

variable {i : Instr} {s : State} {ra : Reg} {ea v : Word}

/-- The address over the integers is the one the meanings compute (D32). -/
theorem baseAddress_eq (rb : Reg) (imm17 : BitVec 17) (s : State) : baseAddress rb imm17 s = addressM rb imm17 s := by
  rw [baseAddress, addressM, add_sext_eq_wrap _ _ (by decide)]
  rfl

theorem writes_of_plainLoad (hexec : exec i s = loadWord ra ea s) (hp : PlainData s ea) :
    Writes i s ra (s.dmem.word (wordIndex ea)) :=
  writes_of_writeReg (hexec.trans (loadWord_of_plain ra hp))

theorem onlyWordChanged_setWord (v : Word) (hwf : s.dmem.wf = true) :
    OnlyWordChanged ea s (s.setDmem (s.dmem.setWord (wordIndex ea) v)) where
  regs _ := rfl
  pc := rfl
  ir := rfl
  ie := rfl
  bt := rfl
  slot := rfl
  data k hk := (Memory.word_setWord s.dmem (wordIndex ea) k v hwf).trans (if_neg hk)
  prog _ := rfl
  inputs := rfl
  outputs := rfl
  draws := rfl
  config := rfl

theorem stores_of_plainStore (hexec : exec i s = storeWord ea v s) (hwf : s.dmem.wf = true) (hp : PlainData s ea) :
    Stores i s ea v :=
  ⟨_, hexec.trans (storeWord_of_plain v hp), (Memory.word_setWord _ _ _ _ hwf).trans (if_pos rfl),
    onlyWordChanged_setWord v hwf⟩

end Sys2Proof.Machine

open Sys2Proof Sys2Proof.Machine

/-- Settles O23: each word is its instruction's own; the loads are plain ones, and LEA one register write. -/
theorem loadResults : Obligations.LoadResults := by
  refine ⟨fun c ra rb imm17 s => ?_, fun c ra imm22 s => ?_, fun c ra imm22 s => ?_⟩
  · rw [baseAddress_eq]
    exact ⟨decode_encode (i := .ld ra rb imm17) rfl, writes_of_plainLoad rfl⟩
  · rw [relativeAddress_eq]
    exact ⟨decode_encode (i := .ldr ra imm22) rfl, writes_of_plainLoad rfl⟩
  · rw [relativeAddress_eq]
    exact ⟨decode_encode (i := .lea ra imm22) rfl, writes_of_writeReg rfl⟩

/-- Settles O24: each word is its instruction's own, and the stores are plain ones. -/
theorem storeResults : Obligations.StoreResults := by
  refine ⟨fun c ra rb imm17 s => ?_, fun c ra imm22 s => ?_⟩
  · rw [baseAddress_eq]
    exact ⟨decode_encode (i := .st ra rb imm17) rfl, stores_of_plainStore rfl⟩
  · rw [relativeAddress_eq]
    exact ⟨decode_encode (i := .str ra imm22) rfl, stores_of_plainStore rfl⟩

/-- Settles O30: the load reads the memory that the store wrote. -/
theorem loadReturnsTheLastStore : Obligations.LoadReturnsTheLastStore := by
  intro s ra rb rd re imm imm' hwf hstore hload
  rw [baseAddress_eq] at hstore hload
  rw [baseAddress_eq, baseAddress_eq]
  refine ⟨_, _, storeWord_of_plain (s.reg ra) hstore, loadWord_of_plain rd
    ⟨hload.accepted, hload.present, hload.plain⟩, ?_⟩
  rw [State.setReg_reg_same]
  exact Memory.word_setWord _ _ _ _ hwf

end

section
/-! PC and the pending target: who writes them, and who reads currentPC (R34). -/

namespace Sys2Proof.Machine

/-- Only J, JL, BR and BRL set a pending target (R191). -/
theorem exec_bt {i : Instr} {s t : State} (h : exec i s = .next t) (hi : hasDelaySlot i = false) : t.bt = s.bt := by
  cases i with
  | j | jl | br | brl => cases hi
  | ld | ldr => obtain ⟨-, -, ⟨-, rfl⟩ | ⟨-, rfl⟩⟩ := loadWord_next h <;> rfl
  | st | str => obtain ⟨-, -, ⟨-, rfl⟩ | ⟨-, rfl⟩⟩ := storeWord_next h <;> rfl
  | rfi =>
    obtain ⟨-, a, -, rfl⟩ := interruptReturn_next h
    rfl
  | _ => cases h; rfl

/-- The second state is the first but for PC. -/
def SameButPc (t u : State) : Prop := u = { t with pc := u.pc }

theorem exec_alike_setPc {i : Instr} (s : State) (a : Word) (hi : readsCpc i = false) :
    Alike SameButPc (exec i s) (exec i (s.setPc a)) := by
  cases i with
  | j | jl | brl | ldr | str | lea => cases hi
  | br => exact alike_branchIf rfl rfl rfl (fun _ => rfl) rfl (fun _ => rfl)
  | ld => exact alike_loadWord rfl rfl rfl rfl
  | st => exact alike_storeWord rfl rfl rfl rfl rfl
  | rfi => exact alike_interruptReturn rfl rfl rfl (fun _ => rfl)
  | _ => exact rfl

end Sys2Proof.Machine

open Sys2Proof Sys2Proof.Machine

/-- Settles O45: the writers by the instruction's effect and meaning, the readers by running both states
side by side. -/
theorem accessToPc : Obligations.AccessToPc := by
  refine ⟨fun i s t h hpc => ?_, fun i s t h hbt => ?_, fun i s a => exec_alike_setPc s a⟩
  · exact Classical.byContradiction fun hi => hpc ((exec_effect h).pc hi)
  · exact Bool.of_not_eq_false fun hi => hbt (exec_bt h hi)

end

section
/-! The complete set of stops (R262, 93 section 1): what each shared operation, each instruction and each step can stop
for. -/

namespace Sys2Proof.Machine

/-- What a step may be refused for; two of the reasons need a switch off its decided value (R64, R97). -/
inductive MayRefuse (c : Config) : Refusal → Prop
  | reservedOpcode : MayRefuse c .reservedOpcode
  | reservedCond : MayRefuse c .reservedCond
  | misalignedTarget : MayRefuse c .misalignedTarget
  | transferInDelaySlot : MayRefuse c .transferInDelaySlot
  | linkOverlap : MayRefuse c .linkOverlap
  | irqInDelaySlot : MayRefuse c .irqInDelaySlot
  | misalignedData : c.misalignedData = .refuse → MayRefuse c .misalignedData
  | unusedBits : c.unusedBits = .refuse → MayRefuse c .unusedBits

/-- How an instruction may end; `access` says that it has a data address, without which it cannot fault. -/
def MayEnd (c : Config) (access : Prop) : Host.Outcome State Fault Refusal → Prop
  | .next _ => True
  | .fault f => f = .stuckData ∧ access
  | .refused r => MayRefuse c r

section Operations

variable {s : State} {access : Prop}

theorem misalignedDataRefused_refuse {c : Config} {ea : Word} (h : misalignedDataRefused c ea = true) :
    c.misalignedData = .refuse := by
  simp only [misalignedDataRefused, Bool.and_eq_true, beq_iff_eq] at h
  exact h.1

theorem loadWord_mayEnd (ra : Reg) (ea : Word) (h : access) : MayEnd s.config access (loadWord ra ea s) := by
  unfold loadWord
  split
  · next hm => exact .misalignedData (misalignedDataRefused_refuse hm)
  · split
    · exact ⟨rfl, h⟩
    · split <;> trivial

theorem storeWord_mayEnd (ea v : Word) (h : access) : MayEnd s.config access (storeWord ea v s) := by
  unfold storeWord
  split
  · next hm => exact .misalignedData (misalignedDataRefused_refuse hm)
  · split
    · exact ⟨rfl, h⟩
    · split <;> trivial

theorem delayedBranch_mayEnd (target : Word) : MayEnd s.config access (delayedBranch target s) := by
  unfold delayedBranch
  split
  · exact .transferInDelaySlot
  · split
    · exact .misalignedTarget
    · trivial

theorem interruptReturn_mayEnd : MayEnd s.config access (interruptReturn s) := by
  unfold interruptReturn
  split
  · exact .transferInDelaySlot
  · split
    · exact .misalignedTarget
    · trivial

theorem branchIf_mayEnd (verdict : Option Bool) (target : Word) :
    MayEnd s.config access (branchIf verdict target s) := by
  match verdict with
  | none => exact .reservedCond
  | some false => trivial
  | some true => exact delayedBranch_mayEnd target

theorem execBrl_mayEnd (ra rb rc : Reg) (cond : Cond) : MayEnd s.config access (execBrl ra rb rc cond s) := by
  by_cases h : linkOverlaps ra rb rc cond = true ∧ s.config.brlOverlap = .refuse
  · rw [execBrl_of_refused h]
    exact .linkOverlap
  · rw [execBrl_of_accepted h, linkAndBranch_eq]
    exact branchIf_mayEnd (s := s.setReg ra s.pc) _ _

end Operations

theorem exec_mayEnd (i : Instr) (s : State) :
    MayEnd s.config (∃ ea, loadAddress s i = some ea ∨ storeAddress s i = some ea) (exec i s) := by
  cases i with
  | br => exact branchIf_mayEnd _ _
  | brl ra rb rc cond => exact execBrl_mayEnd ra rb rc cond
  | j => exact delayedBranch_mayEnd _
  | jl ra => exact delayedBranch_mayEnd (s := s.setReg ra s.pc) _
  | ld ra | ldr ra => exact loadWord_mayEnd ra _ ⟨_, .inl rfl⟩
  | st | str => exact storeWord_mayEnd _ _ ⟨_, .inr rfl⟩
  | rfi => exact interruptReturn_mayEnd
  | _ => trivial

theorem reservedRefusal_mayRefuse {c : Config} {w : Word} {r : Reserved} (h : decodeWord c w = .reserved r) :
    MayRefuse c (reservedRefusal r) := by
  cases r with
  | opcode28 => exact .reservedOpcode
  | cond => exact .reservedCond
  | unusedBits =>
    cases hc : c.unusedBits with
    | ignore => exact absurd h (decodeWord_ne_unusedBits hc w)
    | refuse => exact .unusedBits hc

theorem retireOutcome_refused {o : Host.Outcome State Fault Refusal} {r : Refusal} (h : retireOutcome o = .refused r) :
    o = .refused r := by
  cases o with
  | refused q => exact h
  | next | fault => cases h

theorem runInstr_refused {s : State} {r : Refusal} (h : runInstr s = .refused r) : MayRefuse s.config r := by
  unfold runInstr at h
  split at h
  · cases h; exact .misalignedTarget
  · cases h
  · next w _ =>
    split at h
    · next q hq => cases h; exact reservedRefusal_mayRefuse hq
    · next i _ =>
      have hend := exec_mayEnd i (issue w s)
      rwa [retireOutcome_refused h] at hend

theorem step_refused {s : State} {r : Refusal} (h : step s = .refused r) : MayRefuse s.config r := by
  unfold step at h
  split at h
  · cases h
  · cases h
  · cases h; exact .irqInDelaySlot
  · exact runInstr_refused (s := s.sampled) h

end Sys2Proof.Machine

open Sys2Proof Sys2Proof.Machine

/-- Settles O48: no reason is "not modelled", and the decided switches rule out two more. -/
theorem stopsAreThoseTheSpecLists : Obligations.StopsAreThoseTheSpecLists := by
  refine ⟨fun i s f h => ?_, fun s r hc h => ?_, fun s m h => ?_⟩
  · have hend := exec_mayEnd i s
    rwa [h] at hend
  · cases step_refused h with
    | misalignedData hd => cases hc.data.symm.trans hd
    | unusedBits hu => cases hc.unused.symm.trans hu
    | _ => simp
  · cases step_refused h

end

section
/-! Where an instruction completes (93 section 1): a transfer, an access and every other instruction in turn. -/

namespace Sys2Proof.Machine

variable {i : Instr} {s : State}

theorem exec_overlapping (hc : s.config.brlOverlap = .refuse) (h : overlappingBrl i = true) :
    exec i s = .refused .linkOverlap := by
  cases i with
  | brl ra rb rc cond => exact execBrl_of_refused ⟨h, hc⟩
  | _ => cases h

/-- A verdict is missing exactly where the condition is reserved and refused (D10). -/
theorem taken_eq_none_of_reserved {c : Config} {cond : Cond} (hc : c.reservedCond = .refuse)
    (h : (cond == .reserved6 || cond == .reserved7) = true) (v : Word) : taken c cond v = none := by
  cases cond with
  | reserved6 | reserved7 => simp [taken, hc]
  | _ => cases h

theorem taken_ne_none {c : Config} {cond : Cond} (h : (cond == .reserved6 || cond == .reserved7) = false) (v : Word) :
    taken c cond v ≠ none := by
  cases cond with
  | reserved6 | reserved7 => cases h
  | _ => nofun

theorem exec_reservedCond (hc : s.config.reservedCond = .refuse) (h : hasReservedCond i = true)
    (hover : overlappingBrl i = false) : exec i s = .refused .reservedCond := by
  cases i with
  | br rb rc cond => exact congrArg (branchIf · (s.reg rb) s) (taken_eq_none_of_reserved hc h _)
  | brl ra rb rc cond =>
    rw [exec_brl hover, taken_eq_none_of_reserved hc h]
    rfl
  | _ => cases h

/-- An accepted access of implemented memory completes, plain or device. -/
theorem loadWord_completes {ra : Reg} {ea : Word} (ha : s.config.misalignedData = .refuse → isAligned ea = true)
    (hd : implemented s.config.dmemRange (wordIndex ea) = true) : ∃ t, loadWord ra ea s = .next t := by
  cases hdev : implemented s.config.deviceRange (wordIndex ea) with
  | false => exact ⟨_, loadWord_of_plain ra ⟨ha, hd, hdev⟩⟩
  | true => exact ⟨_, loadWord_device ha hd hdev ra⟩

theorem storeWord_completes {ea v : Word} (ha : s.config.misalignedData = .refuse → isAligned ea = true)
    (hd : implemented s.config.dmemRange (wordIndex ea) = true) : ∃ t, storeWord ea v s = .next t := by
  cases hdev : implemented s.config.deviceRange (wordIndex ea) with
  | false => exact ⟨_, storeWord_of_plain v ⟨ha, hd, hdev⟩⟩
  | true => exact ⟨_, storeWord_device ha hd hdev v⟩

theorem branchIf_not_taken {verdict : Option Bool} {target : Word} (hnone : verdict ≠ none)
    (hfalse : verdict ≠ some true) : branchIf verdict target s = .next s := by
  match verdict with
  | none => exact absurd rfl hnone
  | some false => rfl
  | some true => exact absurd rfl hfalse

/-- An instruction that transfers no control, has no data address and no undefined operands completes. -/
theorem exec_plain_completes (ht : transferTarget s i = none) (hl : loadAddress s i = none)
    (hs : storeAddress s i = none) (hover : overlappingBrl i = false) (hcond : hasReservedCond i = false) :
    ∃ t, exec i s = .next t := by
  cases i with
  | br rb rc cond =>
    have hfalse : taken s.config cond (s.reg rc) ≠ some true := fun h => by simp [transferTarget, h] at ht
    exact ⟨s, branchIf_not_taken (taken_ne_none hcond _) hfalse⟩
  | brl ra rb rc cond =>
    have hfalse : taken s.config cond (s.reg rc) ≠ some true := fun h => by simp [transferTarget, h] at ht
    exact ⟨_, (exec_brl hover).trans (branchIf_not_taken (taken_ne_none hcond _) hfalse)⟩
  | j | jl | rfi => cases ht
  | ld | ldr => cases hl
  | st | str => cases hs
  | _ => exact ⟨_, rfl⟩

/-- The situations to which the spec gives no meaning, one after the other, all absent (93 section 1). -/
def Defined (i : Instr) (s : State) : Prop :=
  (∀ a, transferTarget s i = some a → s.slot = none ∧ isAligned a = true) ∧ overlappingBrl i = false ∧
    hasReservedCond i = false ∧
    ∀ a, loadAddress s i = some a ∨ storeAddress s i = some a → implemented s.config.dmemRange (wordIndex a) = true

variable (hc : DecidedSwitches s.config)
include hc

theorem accepted_of_decided (ea : Word) : s.config.misalignedData = .refuse → isAligned ea = true :=
  fun h => by cases hc.data.symm.trans h

theorem defined_of_completes {t : State} (h : exec i s = .next t) : Defined i s := by
  have hover : overlappingBrl i = false := by
    by_contra hb
    cases h.symm.trans (exec_overlapping hc.overlap (Bool.of_not_eq_false hb))
  refine ⟨fun a ha => ?_, hover, ?_, fun a ha => ?_⟩
  · have hs : s.slot = none := by
      by_contra hs
      cases h.symm.trans (exec_transfer_in_slot ha hover hs)
    refine ⟨hs, ?_⟩
    by_contra hm
    have hnone := targetOf_refused hc.pc (Bool.of_not_eq_true hm)
    cases h.symm.trans (exec_transfer_misaligned ha hover hs hnone)
  · by_contra hb
    cases h.symm.trans (exec_reservedCond hc.cond (Bool.of_not_eq_false hb) hover)
  · by_contra hd
    cases h.symm.trans (exec_data_stuck ha (accepted_of_decided hc a) (Bool.of_not_eq_true hd))

theorem completes_of_defined (h : Defined i s) : ∃ t, exec i s = .next t := by
  obtain ⟨htransfer, hover, hcond, hdata⟩ := h
  cases ht : transferTarget s i with
  | some a =>
    obtain ⟨hs, ha⟩ := htransfer a ht
    obtain ⟨t, hexec, -⟩ := exec_transfer_accepted ht hover hs (targetOf_aligned ha)
    exact ⟨t, hexec⟩
  | none =>
    cases hl : loadAddress s i with
    | some ea =>
      obtain ⟨ra, -, hexec⟩ := exec_load hl
      rw [hexec]
      exact loadWord_completes (accepted_of_decided hc ea) (hdata ea (.inl hl))
    | none =>
      cases hs : storeAddress s i with
      | some ea =>
        obtain ⟨v, hexec⟩ := exec_store hs
        rw [hexec]
        exact storeWord_completes (accepted_of_decided hc ea) (hdata ea (.inr hs))
      | none => exact exec_plain_completes ht hl hs hover hcond

end Sys2Proof.Machine

open Sys2Proof Sys2Proof.Machine

/-- Settles O47: each situation stops the instruction, and where none arises it completes. -/
theorem instructionCompletesExactlyWhenDefined : Obligations.InstructionCompletesExactlyWhenDefined :=
  fun _ _ hc => ⟨fun ⟨_, h⟩ => defined_of_completes hc h, completes_of_defined hc⟩

end

section
/-! The assembler on the lines the model writes (R111 to R114, D30): each operand is read back as the field it was
written from. -/

namespace Sys2Proof

open Sys2Proof.Machine

/-! ## Fields written as numbers (R114) -/

/-- The signed value of a field is one way to write it. -/
theorem immediateField_toInt {n : Nat} (v : BitVec n) : immediateField n v.toInt = some v := by
  have hlo : -2 ^ (n - 1) ≤ v.toInt := BitVec.le_toInt v
  have hhi : v.toInt < 2 ^ n := by
    have hpos : (0 : Int) < 2 ^ n := by positivity
    linarith [BitVec.two_mul_toInt_lt (x := v)]
  rw [immediateField, if_pos ⟨hlo, Int.le_sub_one_of_lt hhi⟩, BitVec.ofInt_toInt]

/-- The raw pattern is another. -/
theorem immediateField_toNat {n : Nat} (v : BitVec n) : immediateField n v.toNat = some v := by
  have hlo : -2 ^ (n - 1) ≤ (v.toNat : Int) := by
    have hpos : (0 : Int) < 2 ^ (n - 1) := by positivity
    linarith [Int.natCast_nonneg v.toNat]
  have hhi : (v.toNat : Int) < 2 ^ n := by exact_mod_cast v.isLt
  rw [immediateField, if_pos ⟨hlo, Int.le_sub_one_of_lt hhi⟩, BitVec.ofInt_natCast, BitVec.ofNat_toNat,
    BitVec.setWidth_eq]

theorem ofInt_emod (n : Nat) (v : Int) : BitVec.ofInt n (v % 2 ^ n) = BitVec.ofInt n v := by
  apply BitVec.eq_of_toNat_eq
  simp [BitVec.toNat_ofInt]

/-! ## Operands -/

theorem assembleType2_fields (t : Type2) : assembleType2 t.mode t.imm10.toInt t.shamt.toNat = some t := by
  rw [assembleType2, immediateField_toInt, immediateField_toNat]

theorem assembleImmediate_imm (one : Reg → Reg → BitVec 17 → Instr) (two : Reg → Reg → Type2 → Instr) (ra rb : Reg)
    (v : BitVec 17) : assembleImmediate one two [.reg ra, .reg rb, immOperand v] = some (one ra rb v) := by
  rw [immOperand, assembleImmediate, immediateField_toInt, Option.map_some]

theorem assembleImmediate_type2 (one : Reg → Reg → BitVec 17 → Instr) (two : Reg → Reg → Type2 → Instr) (ra rb : Reg)
    (t : Type2) : assembleImmediate one two [.reg ra, .reg rb, type2Operand t] = some (two ra rb t) := by
  rw [type2Operand, assembleImmediate, assembleType2_fields, Option.map_some]

theorem assembleShift_shamt (byShamt : Reg → Reg → BitVec 5 → Instr) (byReg : Reg → Reg → Reg → Instr) (ra rb : Reg)
    (n : BitVec 5) : assembleShift byShamt byReg [.reg ra, .reg rb, shamtOperand n] = some (byShamt ra rb n) := by
  rw [shamtOperand, assembleShift, immediateField_toNat, Option.map_some]

theorem assembleRelative_imm (mk : Reg → BitVec 22 → Instr) (ra : Reg) (v : BitVec 22) :
    assembleRelative mk [.reg ra, immOperand v] = some (mk ra v) := by
  rw [immOperand, assembleRelative, immediateField_toInt, Option.map_some]

/-- A base of 31 is written by leaving it out (R112). -/
theorem assembleMem_address (mk : Reg → Reg → BitVec 17 → Instr) (ra rb : Reg) (v : BitVec 17) :
    assembleMem mk [.reg ra, addressOperand rb v] = some (mk ra rb v) := by
  unfold addressOperand
  split
  · next hrb => rw [hrb, assembleMem, immediateField_toInt, Option.map_some]
  · next hrb => rw [assembleMem, if_neg hrb, immediateField_toInt, Option.map_some]

/-- R113 gives every condition but the reserved ones a suffix. -/
theorem suffixCond_condSuffix (cond : Cond) :
    suffixCond (condSuffix cond) = if cond == .reserved6 || cond == .reserved7 then none else some cond := by
  cases cond <;> rfl

theorem assembleBr_operands {rb rc : Reg} {cond : Cond} (hrc : (if cond.readsRc then rc else 0#5) = rc) :
    assembleBr cond (.reg rb :: rcOperands cond rc) = some (.br rb rc cond) := by
  cases hr : cond.readsRc with
  | false =>
    obtain rfl : 0#5 = rc := by simpa [hr] using hrc
    simp [assembleBr, rcOperands, hr]
  | true => simp [assembleBr, rcOperands, hr]

theorem assembleBrl_operands {ra rb rc : Reg} {cond : Cond} (hrc : (if cond.readsRc then rc else 0#5) = rc) :
    assembleBrl cond (.reg ra :: .reg rb :: rcOperands cond rc) = some (.brl ra rb rc cond) := by
  cases hr : cond.readsRc with
  | false =>
    obtain rfl : 0#5 = rc := by simpa [hr] using hrc
    simp [assembleBrl, rcOperands, hr]
  | true => simp [assembleBrl, rcOperands, hr]

/-! ## Lines -/

theorem assemble_br_line {rb rc : Reg} {cond : Cond} (hrc : (if cond.readsRc then rc else 0#5) = rc) :
    assemble (Instr.br rb rc cond).line =
      if hasReservedCond (.br rb rc cond) then none else some (.br rb rc cond) := by
  have hline : assemble (Instr.br rb rc cond).line =
      (suffixCond (condSuffix cond)).bind fun d => assembleBr d (.reg rb :: rcOperands cond rc) := rfl
  rw [hline, suffixCond_condSuffix, hasReservedCond]
  split
  · rfl
  · exact assembleBr_operands hrc

theorem assemble_brl_line {ra rb rc : Reg} {cond : Cond} (hrc : (if cond.readsRc then rc else 0#5) = rc) :
    assemble (Instr.brl ra rb rc cond).line =
      if hasReservedCond (.brl ra rb rc cond) then none else some (.brl ra rb rc cond) := by
  have hline : assemble (Instr.brl ra rb rc cond).line =
      (suffixCond (condSuffix cond)).bind fun d => assembleBrl d (.reg ra :: .reg rb :: rcOperands cond rc) := rfl
  rw [hline, suffixCond_condSuffix, hasReservedCond]
  split
  · rfl
  · exact assembleBrl_operands hrc

theorem assemble_line {c : Config} {i : Instr} (h : i.wellFormed c = true) :
    assemble i.line = if hasReservedCond i then none else some i := by
  cases i with
  | addi ra rb v => exact assembleImmediate_imm .addi .addi2 ra rb v
  | ori ra rb v => exact assembleImmediate_imm .ori .ori2 ra rb v
  | andi ra rb v => exact assembleImmediate_imm .andi .andi2 ra rb v
  | addi2 ra rb t => exact assembleImmediate_type2 .addi .addi2 ra rb t
  | ori2 ra rb t => exact assembleImmediate_type2 .ori .ori2 ra rb t
  | andi2 ra rb t => exact assembleImmediate_type2 .andi .andi2 ra rb t
  | movi ra v => exact congrArg (Option.map (Instr.movi ra)) (immediateField_toInt v)
  | movi2 ra t => exact congrArg (Option.map (Instr.movi2 ra)) (assembleType2_fields t)
  | asr ra rb n => exact assembleShift_shamt .asr .asrR ra rb n
  | lsr ra rb n => exact assembleShift_shamt .lsr .lsrR ra rb n
  | shl ra rb n => exact assembleShift_shamt .shl .shlR ra rb n
  | ror ra rb n => exact assembleShift_shamt .ror .rorR ra rb n
  | br =>
    obtain ⟨-, hrc, -⟩ := br_wellFormed h
    exact assemble_br_line hrc
  | brl =>
    obtain ⟨-, hrc⟩ := brl_wellFormed h
    exact assemble_brl_line hrc
  | j v => exact congrArg (Option.map Instr.j) (immediateField_toInt v)
  | jl ra v | ldr ra v | str ra v | lea ra v => exact assembleRelative_imm _ ra v
  | ld ra rb v | st ra rb v => exact assembleMem_address _ ra rb v
  | _ => rfl

/-- ADDI with a written immediate is the 17-bit field of that number (R114). -/
theorem assemble_addi (ra rb : Reg) (v : Int) :
    assemble (line .addi [.reg ra, .reg rb, .imm v]) = (immediateField 17 v).map (Instr.addi ra rb) := rfl

end Sys2Proof

open Sys2Proof Sys2Proof.Machine

/-- Settles O51: line by line, and the range of a 17-bit field. -/
theorem assemblerReadsEveryInstructionsLine : Obligations.AssemblerReadsEveryInstructionsLine := by
  refine ⟨fun c i => assemble_line, fun ra rb v => ⟨fun hv => ?_, fun hv => ?_⟩⟩
  · rw [assemble_addi, immediateField, if_pos (by omega), Option.map_some]
    exact congrArg (fun u => some (Instr.addi ra rb u)) (ofInt_emod 17 v).symm
  · rw [assemble_addi, immediateField, if_neg (by omega), Option.map_none]

end
